-- ==== Sys2Proof/Word.lean ====
section
/-! DEFINITION. The machine's word types: bytes of memory and registers, 16-bit words, and the fields of an opcode
(00_scope.md section 6, 30_encoding.md rule R61). All values are unsigned. -/

namespace Sys2Proof

/-- A byte: a memory cell, a V register, a timer (rules R10, R11, R15, R16). -/
abbrev Byte := BitVec 8

/-- A 16-bit word: an opcode, I, PC, a stack entry (rules R13, R14, R20, R60). -/
abbrev Word := BitVec 16

/-- A register number, the X or Y field (rule R11). -/
abbrev Reg := BitVec 4

/-- A 12-bit absolute address field NNN (rule R61). -/
abbrev Addr12 := BitVec 12

/-- A 4-bit count field N, the height of a sprite (rule R61). -/
abbrev Count := BitVec 4

end Sys2Proof
end

