-- ==== Sys2Proof/Syntax.lean ====
section
/-! DEFINITION. The instruction set: one constructor per row of spec/opcode_table.json (rule R69), in the table's
order, each with the fields its format names (rules R61, R62). The operand types have exactly the widths of the
fields, so every term of `Instr` is an instruction of the machine. -/

namespace Sys2Proof

/-- The 34 instructions (rules R2, R69). -/
inductive Instr where
  /-- `00E0` CLS, rule R118. -/
  | cls
  /-- `00EE` RET, rule R85. -/
  | ret
  /-- `1NNN` JP, rule R86. -/
  | jp (nnn : Addr12)
  /-- `2NNN` CALL, rule R87. -/
  | call (nnn : Addr12)
  /-- `3XNN` SE_I, rule R89. -/
  | seI (x : Reg) (nn : Byte)
  /-- `4XNN` SNE_I, rule R90. -/
  | sneI (x : Reg) (nn : Byte)
  /-- `5XY0` SE_R, rule R91. -/
  | seR (x y : Reg)
  /-- `9XY0` SNE_R, rule R92. -/
  | sneR (x y : Reg)
  /-- `6XNN` LD_I, rule R95. -/
  | ldI (x : Reg) (nn : Byte)
  /-- `7XNN` ADD_I, rule R96. -/
  | addI (x : Reg) (nn : Byte)
  /-- `8XY0` LD_R, rule R97. -/
  | ldR (x y : Reg)
  /-- `8XY1` OR, rule R98. -/
  | orR (x y : Reg)
  /-- `8XY2` AND, rule R99. -/
  | andR (x y : Reg)
  /-- `8XY3` XOR, rule R100. -/
  | xorR (x y : Reg)
  /-- `8XY4` ADD_R, rule R101. -/
  | addR (x y : Reg)
  /-- `8XY5` SUB, rule R102. -/
  | sub (x y : Reg)
  /-- `8XY6` SHR, rule R103; the Y field is present and ignored (rule R68). -/
  | shr (x y : Reg)
  /-- `8XY7` SUBN, rule R104. -/
  | subn (x y : Reg)
  /-- `8XYE` SHL, rule R105; the Y field is present and ignored (rule R68). -/
  | shl (x y : Reg)
  /-- `ANNN` LD_IDX, rule R110. -/
  | ldIdx (nnn : Addr12)
  /-- `BNNN` JP_V0, rule R88. -/
  | jpV0 (nnn : Addr12)
  /-- `CXNN` RND, rule R106. -/
  | rnd (x : Reg) (nn : Byte)
  /-- `DXYN` DRW, rule R119. -/
  | drw (x y : Reg) (n : Count)
  /-- `EX9E` SKP, rule R124. -/
  | skp (x : Reg)
  /-- `EXA1` SKNP, rule R125. -/
  | sknp (x : Reg)
  /-- `FX07` LD_VX_DT, rule R127. -/
  | ldVxDt (x : Reg)
  /-- `FX0A` LD_VX_K, rule R126. -/
  | ldVxK (x : Reg)
  /-- `FX15` LD_DT_VX, rule R128. -/
  | ldDtVx (x : Reg)
  /-- `FX18` LD_ST_VX, rule R129. -/
  | ldStVx (x : Reg)
  /-- `FX1E` ADD_IDX, rule R111. -/
  | addIdx (x : Reg)
  /-- `FX29` LD_F, rule R112. -/
  | ldF (x : Reg)
  /-- `FX33` LD_B, rule R113. -/
  | ldB (x : Reg)
  /-- `FX55` ST_REGS, rule R114. -/
  | stRegs (x : Reg)
  /-- `FX65` LD_REGS, rule R115. -/
  | ldRegs (x : Reg)
  deriving DecidableEq, Repr

end Sys2Proof
end

