-- ==== Sys2Proof/WellFormed.lean ====
section
/-! DEFINITION. Which 16-bit words are instructions: the opcode map of rule R69 as a table of masks and matches. A word
is well formed when it matches a row; every other word is an unknown opcode (rule R71). A term of `Instr` needs no
check of its own, since each operand's type has exactly the width of its field. -/

namespace Sys2Proof

/-- A row of the opcode map: a word `w` is the instruction when `w &&& mask = value` (rule R69). -/
structure OpcodeRow where
  mask : Word
  value : Word
  deriving DecidableEq, Repr

/-- Does the word match the row? (rule R69) -/
def OpcodeRow.accepts (r : OpcodeRow) (w : Word) : Bool := w &&& r.mask == r.value

/-- The row of each instruction, as the table of rule R69 gives its mask and match. -/
def Instr.row : Instr → OpcodeRow
  | .cls => ⟨0xFFFF#16, 0x00E0#16⟩
  | .ret => ⟨0xFFFF#16, 0x00EE#16⟩
  | .jp _ => ⟨0xF000#16, 0x1000#16⟩
  | .call _ => ⟨0xF000#16, 0x2000#16⟩
  | .seI _ _ => ⟨0xF000#16, 0x3000#16⟩
  | .sneI _ _ => ⟨0xF000#16, 0x4000#16⟩
  | .seR _ _ => ⟨0xF00F#16, 0x5000#16⟩
  | .sneR _ _ => ⟨0xF00F#16, 0x9000#16⟩
  | .ldI _ _ => ⟨0xF000#16, 0x6000#16⟩
  | .addI _ _ => ⟨0xF000#16, 0x7000#16⟩
  | .ldR _ _ => ⟨0xF00F#16, 0x8000#16⟩
  | .orR _ _ => ⟨0xF00F#16, 0x8001#16⟩
  | .andR _ _ => ⟨0xF00F#16, 0x8002#16⟩
  | .xorR _ _ => ⟨0xF00F#16, 0x8003#16⟩
  | .addR _ _ => ⟨0xF00F#16, 0x8004#16⟩
  | .sub _ _ => ⟨0xF00F#16, 0x8005#16⟩
  | .shr _ _ => ⟨0xF00F#16, 0x8006#16⟩
  | .subn _ _ => ⟨0xF00F#16, 0x8007#16⟩
  | .shl _ _ => ⟨0xF00F#16, 0x800E#16⟩
  | .ldIdx _ => ⟨0xF000#16, 0xA000#16⟩
  | .jpV0 _ => ⟨0xF000#16, 0xB000#16⟩
  | .rnd _ _ => ⟨0xF000#16, 0xC000#16⟩
  | .drw _ _ _ => ⟨0xF000#16, 0xD000#16⟩
  | .skp _ => ⟨0xF0FF#16, 0xE09E#16⟩
  | .sknp _ => ⟨0xF0FF#16, 0xE0A1#16⟩
  | .ldVxDt _ => ⟨0xF0FF#16, 0xF007#16⟩
  | .ldVxK _ => ⟨0xF0FF#16, 0xF00A#16⟩
  | .ldDtVx _ => ⟨0xF0FF#16, 0xF015#16⟩
  | .ldStVx _ => ⟨0xF0FF#16, 0xF018#16⟩
  | .addIdx _ => ⟨0xF0FF#16, 0xF01E#16⟩
  | .ldF _ => ⟨0xF0FF#16, 0xF029#16⟩
  | .ldB _ => ⟨0xF0FF#16, 0xF033#16⟩
  | .stRegs _ => ⟨0xF0FF#16, 0xF055#16⟩
  | .ldRegs _ => ⟨0xF0FF#16, 0xF065#16⟩

/-- The opcode map: the 34 rows of rule R69, in the table's order. -/
def opcodeMap : List OpcodeRow :=
  [Instr.row .cls, Instr.row .ret, Instr.row (.jp 0), Instr.row (.call 0), Instr.row (.seI 0 0),
   Instr.row (.sneI 0 0), Instr.row (.seR 0 0), Instr.row (.sneR 0 0), Instr.row (.ldI 0 0), Instr.row (.addI 0 0)] ++
  [Instr.row (.ldR 0 0), Instr.row (.orR 0 0), Instr.row (.andR 0 0), Instr.row (.xorR 0 0), Instr.row (.addR 0 0),
   Instr.row (.sub 0 0), Instr.row (.shr 0 0), Instr.row (.subn 0 0), Instr.row (.shl 0 0)] ++
  [Instr.row (.ldIdx 0), Instr.row (.jpV0 0), Instr.row (.rnd 0 0), Instr.row (.drw 0 0 0), Instr.row (.skp 0),
   Instr.row (.sknp 0), Instr.row (.ldVxDt 0), Instr.row (.ldVxK 0), Instr.row (.ldDtVx 0), Instr.row (.ldStVx 0)] ++
  [Instr.row (.addIdx 0), Instr.row (.ldF 0), Instr.row (.ldB 0), Instr.row (.stRegs 0), Instr.row (.ldRegs 0)]

/-- Is the word one of the 34 instructions? Every word for which this is false is an unknown opcode (rules R69, R71). -/
def wordWellFormed (w : Word) : Bool := opcodeMap.any (·.accepts w)

end Sys2Proof
end

