-- ==== Sys2Proof/Decode.lean ====
section
/-! DEFINITION. Byte order of a word (rules R48, R49), the fields of an opcode (rule R61), the decoder (rules R64 to
R71) and the encoder. Decoding is a total, pure function of the opcode; a word that matches no row of rule R69 decodes
to `unknownOpcode`. -/

namespace Sys2Proof

/-- `hi ∥ lo`: a word from its two bytes, the high byte first (rules R48, R49; PRESUMED, log entry 6). -/
def Word.ofBytes (hi lo : Byte) : Word := hi ++ lo
/-- Bits 15:8 of a word. -/
def Word.hi (w : Word) : Byte := w.extractLsb' 8 8
/-- Bits 7:0 of a word. -/
def Word.lo (w : Word) : Byte := w.extractLsb' 0 8

/-- The class, bits 15:12 (rule R61). -/
def opClass (op : Word) : BitVec 4 := op.extractLsb' 12 4
/-- Field X, bits 11:8 (rule R61). -/
def fieldX (op : Word) : Reg := op.extractLsb' 8 4
/-- Field Y, bits 7:4 (rule R61). -/
def fieldY (op : Word) : Reg := op.extractLsb' 4 4
/-- Field N, bits 3:0 (rule R61). -/
def fieldN (op : Word) : Count := op.extractLsb' 0 4
/-- Field NN, bits 7:0 (rule R61). -/
def fieldNN (op : Word) : Byte := op.extractLsb' 0 8
/-- Field NNN, bits 11:0 (rule R61). -/
def fieldNNN (op : Word) : Addr12 := op.extractLsb' 0 12

/-- What decode produces (rule R64): an instruction, or Unknown with the word it could not read (rule R71). -/
inductive Decoded where
  | instr (i : Instr)
  | unknownOpcode (op : Word)
  deriving DecidableEq, Repr

/-- Class 0: two fixed words; the whole word must match (rule R70). -/
def decodeClass0 (op : Word) : Decoded :=
  if op = 0x00E0#16 then .instr .cls
  else if op = 0x00EE#16 then .instr .ret
  else .unknownOpcode op

/-- Class 8 dispatches on N (rules R65, R66; the digits are PRESUMED, log entry 11). -/
def decodeClass8 (op : Word) : Decoded :=
  match fieldN op with
  | 0x0#4 => .instr (.ldR (fieldX op) (fieldY op))
  | 0x1#4 => .instr (.orR (fieldX op) (fieldY op))
  | 0x2#4 => .instr (.andR (fieldX op) (fieldY op))
  | 0x3#4 => .instr (.xorR (fieldX op) (fieldY op))
  | 0x4#4 => .instr (.addR (fieldX op) (fieldY op))
  | 0x5#4 => .instr (.sub (fieldX op) (fieldY op))
  | 0x6#4 => .instr (.shr (fieldX op) (fieldY op))
  | 0x7#4 => .instr (.subn (fieldX op) (fieldY op))
  | 0xE#4 => .instr (.shl (fieldX op) (fieldY op))
  | _ => .unknownOpcode op

/-- Class E dispatches on NN (rules R65, R67). -/
def decodeClassE (op : Word) : Decoded :=
  match fieldNN op with
  | 0x9E#8 => .instr (.skp (fieldX op))
  | 0xA1#8 => .instr (.sknp (fieldX op))
  | _ => .unknownOpcode op

/-- Class F dispatches on NN (rules R65, R67). -/
def decodeClassF (op : Word) : Decoded :=
  match fieldNN op with
  | 0x07#8 => .instr (.ldVxDt (fieldX op))
  | 0x0A#8 => .instr (.ldVxK (fieldX op))
  | 0x15#8 => .instr (.ldDtVx (fieldX op))
  | 0x18#8 => .instr (.ldStVx (fieldX op))
  | 0x1E#8 => .instr (.addIdx (fieldX op))
  | 0x29#8 => .instr (.ldF (fieldX op))
  | 0x33#8 => .instr (.ldB (fieldX op))
  | 0x55#8 => .instr (.stRegs (fieldX op))
  | 0x65#8 => .instr (.ldRegs (fieldX op))
  | _ => .unknownOpcode op

/-- `decode(opcode)` (rules R64, R65): the class selects, and classes 0, 5, 8, 9, E and F look further. -/
def decode (op : Word) : Decoded :=
  match opClass op with
  | 0x0#4 => decodeClass0 op
  | 0x1#4 => .instr (.jp (fieldNNN op))
  | 0x2#4 => .instr (.call (fieldNNN op))
  | 0x3#4 => .instr (.seI (fieldX op) (fieldNN op))
  | 0x4#4 => .instr (.sneI (fieldX op) (fieldNN op))
  | 0x5#4 => if fieldN op = 0 then .instr (.seR (fieldX op) (fieldY op)) else .unknownOpcode op
  | 0x6#4 => .instr (.ldI (fieldX op) (fieldNN op))
  | 0x7#4 => .instr (.addI (fieldX op) (fieldNN op))
  | 0x8#4 => decodeClass8 op
  | 0x9#4 => if fieldN op = 0 then .instr (.sneR (fieldX op) (fieldY op)) else .unknownOpcode op
  | 0xA#4 => .instr (.ldIdx (fieldNNN op))
  | 0xB#4 => .instr (.jpV0 (fieldNNN op))
  | 0xC#4 => .instr (.rnd (fieldX op) (fieldNN op))
  | 0xD#4 => .instr (.drw (fieldX op) (fieldY op) (fieldN op))
  | 0xE#4 => decodeClassE op
  | _ => decodeClassF op

/-- Decoding from bytes: the first two, high byte first, and the rest of the list; `none` when fewer than two bytes
stand there (rules R48, R60). -/
def decodeBytes : List Byte → Option (Decoded × List Byte)
  | hi :: lo :: rest => some (decode (Word.ofBytes hi lo), rest)
  | _ => none

/-- Format NNN (rule R62). -/
def formatNNN (cls : BitVec 4) (nnn : Addr12) : Word := cls ++ nnn
/-- Format XNN, and XSS with the sub-opcode in NN (rule R62). -/
def formatXNN (cls : BitVec 4) (x : Reg) (nn : Byte) : Word := cls ++ x ++ nn
/-- Format XYN, and XYS with the sub-opcode in N (rule R62). -/
def formatXYN (cls : BitVec 4) (x y : Reg) (n : Count) : Word := cls ++ x ++ y ++ n

/-- The word of an instruction, its fields placed as rules R61, R62 and R69 give them. -/
def encode : Instr → Word
  | .cls => 0x00E0#16
  | .ret => 0x00EE#16
  | .jp nnn => formatNNN 0x1 nnn
  | .call nnn => formatNNN 0x2 nnn
  | .seI x nn => formatXNN 0x3 x nn
  | .sneI x nn => formatXNN 0x4 x nn
  | .seR x y => formatXYN 0x5 x y 0x0
  | .sneR x y => formatXYN 0x9 x y 0x0
  | .ldI x nn => formatXNN 0x6 x nn
  | .addI x nn => formatXNN 0x7 x nn
  | .ldR x y => formatXYN 0x8 x y 0x0
  | .orR x y => formatXYN 0x8 x y 0x1
  | .andR x y => formatXYN 0x8 x y 0x2
  | .xorR x y => formatXYN 0x8 x y 0x3
  | .addR x y => formatXYN 0x8 x y 0x4
  | .sub x y => formatXYN 0x8 x y 0x5
  | .shr x y => formatXYN 0x8 x y 0x6
  | .subn x y => formatXYN 0x8 x y 0x7
  | .shl x y => formatXYN 0x8 x y 0xE
  | .ldIdx nnn => formatNNN 0xA nnn
  | .jpV0 nnn => formatNNN 0xB nnn
  | .rnd x nn => formatXNN 0xC x nn
  | .drw x y n => formatXYN 0xD x y n
  | .skp x => formatXNN 0xE x 0x9E
  | .sknp x => formatXNN 0xE x 0xA1
  | .ldVxDt x => formatXNN 0xF x 0x07
  | .ldVxK x => formatXNN 0xF x 0x0A
  | .ldDtVx x => formatXNN 0xF x 0x15
  | .ldStVx x => formatXNN 0xF x 0x18
  | .addIdx x => formatXNN 0xF x 0x1E
  | .ldF x => formatXNN 0xF x 0x29
  | .ldB x => formatXNN 0xF x 0x33
  | .stRegs x => formatXNN 0xF x 0x55
  | .ldRegs x => formatXNN 0xF x 0x65

/-- The two bytes of an instruction as memory holds them, the high byte at the lower address (rule R48). -/
def encodeBytes (i : Instr) : List Byte := [(encode i).hi, (encode i).lo]

/-- The 16 bits of an instruction numbered as the opcode table numbers them, `nbits` of them given in `w` and every bit
above `nbits` zero. -/
def tableWord (nbits w : Nat) : Word := BitVec.ofNat 16 (w % 2 ^ nbits)

/-- What the decoder reads from that instruction laid out as the hardware stores it (the host's probe). -/
def decodeTableWord (nbits w : Nat) : Option Instr :=
  match decodeBytes [(tableWord nbits w).hi, (tableWord nbits w).lo] with
  | some (.instr i, _) => some i
  | _ => none

end Sys2Proof
end

