-- ==== Sys2Proof/Config.lean ====
section
/-! DEFINITION. What is fixed for the machine (rule R4), the events its environment can send it (rule R7), and the
one free value of the model: which event comes next when none is already due. -/

namespace Sys2Proof

/-- MEM_SIZE (rule R4). -/
abbrev Config.memSize : Nat := 4096
/-- PROG_BASE, first byte of program space (rule R4). -/
abbrev Config.progBase : Nat := 0x200
/-- PROG_MAX, the largest ROM image in bytes (rule R4). -/
abbrev Config.progMax : Nat := 3584
/-- STACK_CAP, entries of the call stack (rule R4). -/
abbrev Config.stackCap : Nat := 16
/-- DISP_W, pixels in a row (rule R4). -/
abbrev Config.dispW : Nat := 64
/-- DISP_H, rows of the display (rule R4). -/
abbrev Config.dispH : Nat := 32
/-- NUM_KEYS, keys of the keypad (rule R4). -/
abbrev Config.numKeys : Nat := 16
/-- The font image: FONT_GLYPHS * GLYPH_BYTES bytes (rules R4, R173). -/
abbrev Config.fontBytes : Nat := 80
/-- SPRITE_W, pixels in a sprite row (rule R4). -/
abbrev Config.spriteW : Nat := 8

/-- The six atomic events that change the state, with their arguments (rules R7, R26). -/
inductive Event where
  /-- The host's Reset (rule R170). -/
  | reset
  /-- The host's Load: the 80 font bytes and the ROM image (rule R173). -/
  | load (font : Vector Byte Config.fontBytes) (rom : List Byte)
  /-- The host's Run (rule R143). -/
  | run
  /-- One Step of the core, with the key state (bit k is key k) and the random byte it samples (rule R75). -/
  | step (keys : Word) (rnd : Byte)
  /-- The 60 Hz Tick of the clock (rule R150). -/
  | tick
  /-- The host's halt request (rule R144). -/
  | haltReq
  deriving DecidableEq, Repr, Inhabited

/-- FREE VALUE (DESIGN CHOICE, log entry 1; safe). The environment: the event that comes as event number `n` when the
state lists none already due. No body: a claim that does not list its events holds for every order of Step, Tick and
host events and for every `keys`, `rnd`, font and ROM (rules R152, R155, R156). -/
opaque Config.envEvent : Nat → Event

end Sys2Proof
end

