-- ==== Sys2Proof/Machine/Layout.lean ====
section
/-! DEFINITION. The addresses the source leaves open and the spec fixes (rules R5, R17, R41, decisions D1, D3, D27; log
entry 5), and the codes of the status registers (rules R23, R24, R25, R130). -/

namespace Sys2Proof.Machine

/-- V_BASE, the address of V0 (rule R17). -/
def vBase : Nat := 0x000
/-- I_ADDR, the address of the high byte of I (rule R17). -/
def iAddr : Nat := 0x010
/-- PC_ADDR, the address of the high byte of PC (rule R17). -/
def pcAddr : Nat := 0x012
/-- DT_ADDR, the address of the delay timer (rule R17). -/
def dtAddr : Nat := 0x014
/-- ST_ADDR, the address of the sound timer (rule R17). -/
def stAddr : Nat := 0x015
/-- The first address above the register window (rule R17). -/
def windowEnd : Nat := 0x016
/-- FONT_BASE, the address of glyph 0 (rule R5). -/
def fontBase : Nat := 0x050
/-- GLYPH_BYTES, the bytes of one glyph (rule R4). -/
def glyphBytes : Nat := 5
/-- ENTRY, the value Load gives PC (rules R5, R173). -/
def entry : Word := 0x200#16
/-- The highest address an instruction can be fetched from (rule R77). -/
def lastFetch : Nat := 0xFFE
/-- The highest address of memory (rule R40). -/
def lastAddr : Nat := 0xFFF

/-- The address of V[x]: register x is MEM[V_BASE + x] (rule R11). -/
def vAddr (x : Reg) : Nat := vBase + x.toNat

end Sys2Proof.Machine
end

