-- ==== Sys2Proof/Machine/State.lean ====
section
/-! DEFINITION. The state of the core (10_state.md) as plain data, and its value after Reset (rule R31). The registers V0
to VF, I, PC, DT and ST are not fields: they are names for bytes of MEM (rules R17, R19). -/

namespace Sys2Proof.Machine

/-- MEM (rule R10): the bytes that are not 0x00, by strictly rising address. An unlisted address reads as 0x00, the
value Reset gives every byte (rule R31; log entry 10). -/
abbrev Memory := List Host.Cell

/-- The canonical form: addresses strictly rising and below 4096, and no listed byte is 0x00. -/
abbrev Memory.wf (m : Memory) : Prop :=
  m.Pairwise (fun p q => p.1 < q.1) ∧ ∀ p ∈ m, p.1 < Config.memSize ∧ p.2 ≠ 0

/-- DISP (rule R21): 32 rows, row 0 the top, of 64 one-bit pixels; bit `x` of a row is the pixel in column `x`, bit 0 the
leftmost (log entry 9). -/
abbrev Display := Vector (BitVec 64) Config.dispH

/-- Every pixel 0. -/
abbrev Display.blank : Display := Vector.replicate Config.dispH 0

/-- RUN, the run state (rule R23); `RunState.code` is its encoding. -/
inductive RunState where
  | reset | loaded | running | halted | faulted
  deriving DecidableEq, Repr

/-- CAUSE, what the fault record holds (rule R24); `Cause.code` is its encoding. -/
inductive Cause where
  | none | stackOverflow | stackUnderflow | addressOutOfRange | programTooLarge
  deriving DecidableEq, Repr

/-- HALT_REASON (rule R25); `HaltReason.code` is its encoding. -/
inductive HaltReason where
  | notHalted | hostRequest | ranOffEnd
  deriving DecidableEq, Repr

/-- The outputs of a Step (rule R27c): they last for that Step only and are no architectural state (log entry 3). -/
structure StepOutput where
  /-- The Step executed `00E0` or `DXYN`. -/
  displayChanged : Bool
  /-- The Step met an unknown opcode: the opcode and its address. -/
  unknown : Option (Word × Word)
  /-- The Step executed an `FX0A` that did not complete. -/
  waiting : Bool
  deriving DecidableEq, Repr

/-- No output raised. -/
def StepOutput.none : StepOutput := ⟨false, Option.none, false⟩

/-- The state. The first ten fields are the spec's; the last five are the model's own (log entries 1, 2, 3). -/
structure State where
  /-- MEM, the registers among its bytes (rules R10, R17). -/
  mem : Memory
  /-- STACK, the oldest entry first; SP is its length (rule R20). -/
  stack : List Word
  /-- DISP (rule R21). -/
  disp : Display
  /-- KPREV, the key state at the end of the previous completed Step (rule R22). -/
  kprev : Word
  /-- RUN (rule R23). -/
  run : RunState
  /-- CAUSE (rule R24). -/
  cause : Cause
  /-- FAULT_PC (rule R24). -/
  faultPc : Word
  /-- FAULT_OPCODE (rule R24). -/
  faultOpcode : Word
  /-- FAULT_ADDR (rule R24). -/
  faultAddr : Word
  /-- HALT_REASON (rule R25). -/
  haltReason : HaltReason
  /-- The model's own: the `keys` argument of the Step in progress, bit `k` for key `k` (rules R26a, R155). -/
  keys : Word
  /-- The model's own: the `rnd` argument of the Step in progress (rules R26b, R156). -/
  rnd : Byte
  /-- The model's own: the outputs of the latest event (rule R27c). -/
  out : StepOutput
  /-- The model's own: the events already due, oldest first (rule R7). -/
  inbox : List Event
  /-- The model's own: how many events have been delivered. -/
  eventNo : Nat
  deriving DecidableEq, Repr

/-- Why a step can stop without a next state. There is no constructor: the spec gives every event an effect in every
state, and the errors it names are states of the machine (RUN = Faulted, rule R137), so nothing raises a fault here. -/
inductive Fault where
  deriving DecidableEq, Repr

/-- Why an instruction has no meaning. -/
inductive Refusal where
  /-- Raised by `exec` alone, for an instruction that has no meaning yet; safe. No arm raises it now. -/
  | notModelled (mnemonic : String)
  deriving DecidableEq, Repr

/-- The machine right after the Reset event (rules R31, R170). The last five fields are the model's own and their values
are DESIGN CHOICES (log entry 2). -/
def State.reset : State where
  mem := []
  stack := []
  disp := Display.blank
  kprev := 0
  run := .reset
  cause := .none
  faultPc := 0
  faultOpcode := 0
  faultAddr := 0
  haltReason := .notHalted
  keys := 0
  rnd := 0
  out := StepOutput.none
  inbox := []
  eventNo := 0

end Sys2Proof.Machine
end

