-- ==== Sys2Proof/Machine/Ops.lean ====
section
/-! DEFINITION. The named operations over memory, registers, call stack and display, the checks of an address, taking a
fault, and the reads the host may make. -/

namespace Sys2Proof.Machine

/-! ## Memory (rules R10, R40, R44, R45) -/

/-- MEM[a] with no check: the listed byte, or 0x00 (rules R10, R31). -/
def Memory.read : Memory → Nat → Byte
  | [], _ => 0
  | (k, v) :: m, a => if k = a then v else Memory.read m a

/-- The memory without an entry for `a`. -/
def Memory.erase (m : Memory) (a : Nat) : Memory := m.filter (fun p => p.1 != a)

/-- Put the entry `(a, v)` before the first higher address. -/
def Memory.insert (a : Nat) (v : Byte) : Memory → Memory
  | [] => [(a, v)]
  | (k, w) :: m => if a < k then (a, v) :: (k, w) :: m else (k, w) :: Memory.insert a v m

/-- MEM[a] <- v with no check, in canonical form; no other byte changes (rule R45). -/
def Memory.write (m : Memory) (a : Nat) (v : Byte) : Memory :=
  if v = 0 then m.erase a else Memory.insert a v (m.erase a)

/-- Bytes written at ascending addresses from `a` (rules R51, R173). -/
def Memory.writeAll (m : Memory) (a : Nat) : List Byte → Memory
  | [] => m
  | b :: bs => Memory.writeAll (m.write a b) (a + 1) bs

/-- MEM[a], for an address of memory. -/
def State.byte (s : State) (a : Nat) : Byte := s.mem.read a

/-- MEM[a] <- v, for an address of memory; a register whose byte it is changes with it (rule R19). -/
def State.setByte (s : State) (a : Nat) (v : Byte) : State := { s with mem := s.mem.write a v }

/-! ## Registers: names for bytes of memory (rules R11 to R19, R49) -/

/-- V[x] (rule R11). -/
def State.v (s : State) (x : Reg) : Byte := s.byte (vAddr x)
/-- V[x] <- v (rule R11). -/
def State.setV (s : State) (x : Reg) (v : Byte) : State := s.setByte (vAddr x) v

/-- The 16-bit register whose high byte is MEM[a] (rule R49). -/
def State.word (s : State) (a : Nat) : Word := Word.ofBytes (s.byte a) (s.byte (a + 1))
/-- Write the 16-bit register whose high byte is MEM[a] (rule R49). -/
def State.setWord (s : State) (a : Nat) (w : Word) : State := (s.setByte a (Word.hi w)).setByte (a + 1) (Word.lo w)

/-- The index register I (rule R13). -/
def State.regI (s : State) : Word := s.word iAddr
/-- I <- w (rule R13). -/
def State.setRegI (s : State) (w : Word) : State := s.setWord iAddr w

/-- The program counter PC (rule R14). -/
def State.pc (s : State) : Word := s.word pcAddr
/-- PC <- w (rule R14). -/
def State.setPc (s : State) (w : Word) : State := s.setWord pcAddr w

/-- The delay timer DT (rule R15). -/
def State.dt (s : State) : Byte := s.byte dtAddr
/-- DT <- v (rule R15). -/
def State.setDt (s : State) (v : Byte) : State := s.setByte dtAddr v

/-- The sound timer ST (rule R16). -/
def State.st (s : State) : Byte := s.byte stAddr
/-- ST <- v (rule R16). -/
def State.setSt (s : State) (v : Byte) : State := s.setByte stAddr v

/-! ## The PC update, the last action of every instruction (rule R78) -/

/-- `PC <- PC + 2`, modulo 65536, on PC as the instruction's other effects leave it (rule R78). -/
def State.advance (s : State) : State := s.setPc (s.pc + 2)

/-- The update of a conditional skip: `PC <- PC + 4` when taken, else `PC <- PC + 2` (rule R78). -/
def State.skipIf (s : State) (taken : Bool) : State := if taken then s.setPc (s.pc + 4) else s.advance

/-! ## Errors an instruction can raise, and the checks that raise them (rules R44 to R47, R130) -/

/-- The fatal kinds of rule R130, with the offending address of AddressOutOfRange. -/
inductive Raise where
  | stackOverflow
  | stackUnderflow
  | addressOutOfRange (a : Nat)
  deriving DecidableEq, Repr

/-- The CAUSE of a raised kind (rules R24, R130). -/
def Raise.cause : Raise → Cause
  | .stackOverflow => .stackOverflow
  | .stackUnderflow => .stackUnderflow
  | .addressOutOfRange _ => .addressOutOfRange

/-- The FAULT_ADDR of a raised kind: the offending address, and 0 for the others (rules R24, R137). -/
def Raise.faultAddr : Raise → Word
  | .addressOutOfRange a => BitVec.ofNat 16 a
  | _ => 0

/-- `MemRead(a, 1)` (rule R44). -/
def State.memRead (s : State) (a : Nat) : Except Raise Byte :=
  if lastAddr < a then .error (.addressOutOfRange a) else .ok (s.byte a)

/-- `MemWrite(a, 1, v)` (rule R45). -/
def State.memWrite (s : State) (a : Nat) (v : Byte) : Except Raise State :=
  if lastAddr < a then .error (.addressOutOfRange a) else .ok (s.setByte a v)

/-- The check of the whole range of `n` bytes from `a`, made before anything changes; the address raised is the first of
the range that is out of memory (rule R46). -/
def rangeCheck (a n : Nat) : Except Raise Unit :=
  if 0 < n ∧ lastAddr < a + n - 1 then .error (.addressOutOfRange (max a 0x1000)) else .ok ()

/-- `n` checked byte reads at ascending addresses from `a` (rules R44, R51). -/
def State.memReads (s : State) (a : Nat) : Nat → Except Raise (List Byte)
  | 0 => .ok []
  | n + 1 => do
    let b ← s.memRead a
    let bs ← s.memReads (a + 1) n
    .ok (b :: bs)

/-! ## The call stack (rule R20) -/

/-- SP, the depth of the call stack (rule R20). -/
def State.sp (s : State) : Nat := s.stack.length

/-- `push(a)` (rules R20, R131). -/
def State.push (s : State) (a : Word) : Except Raise State :=
  if s.sp = Config.stackCap then .error .stackOverflow else .ok { s with stack := s.stack ++ [a] }

/-- `peek()`: the newest entry (rules R20, R158). -/
def State.peek (s : State) : Except Raise Word :=
  match s.stack.getLast? with
  | none => .error .stackUnderflow
  | some a => .ok a

/-- `pop()`: the newest entry, and the state without it (rules R20, R132). -/
def State.pop (s : State) : Except Raise (Word × State) :=
  match s.stack.getLast? with
  | none => .error .stackUnderflow
  | some a => .ok (a, { s with stack := s.stack.dropLast })

/-! ## The display (rules R21, R119 to R121) -/

/-- DISP[y][x], for a row and column of the screen; false outside it (rule R21). -/
def Display.pixel (d : Display) (x y : Nat) : Bool := (d[y]?.getD 0).getLsbD x

/-- DISP[y][x] <- DISP[y][x] ^ 1 (rule R119). -/
def Display.toggle (d : Display) (x y : Nat) : Display :=
  d.setIfInBounds y (d[y]?.getD 0 ^^^ BitVec.twoPow 64 x)

/-- The pixel in column `x`, row `y` (rules R21, R120). -/
def State.pixel (s : State) (x y : Nat) : Bool := s.disp.pixel x y

/-- One sprite bit at (x, y): a 1 bit on the screen toggles its pixel, and hits if the pixel was 1 (rule R119). -/
def plot (x y : Nat) (bit : Bool) (p : Display × Bool) : Display × Bool :=
  if x < Config.dispW ∧ bit = true then (p.1.toggle x y, p.2 || p.1.pixel x y) else p

/-- One sprite row: column `c` shows bit `7 - c` of the byte; columns past 63 are clipped (rules R119, R121). -/
def drawRow (x0 y : Nat) (b : Byte) (p : Display × Bool) : Display × Bool :=
  (List.range Config.spriteW).foldl (fun q c => plot (x0 + c) y (b.getLsbD (7 - c)) q) p

/-- The rows of a sprite from row `y` down; rows past 31 are clipped (rule R119). -/
def drawRows (x0 y : Nat) : List Byte → Display × Bool → Display × Bool
  | [], p => p
  | b :: bs, p => drawRows x0 (y + 1) bs (if y < Config.dispH then drawRow x0 y b p else p)

/-! ## Taking a fault (rules R75, R137, R138). There is no return from one (rule R139) -/

/-- Fault entry (rule R137): RUN <- Faulted, and the fault record; nothing else changes. `op` is the opcode and PC still
holds the address of the faulting instruction (rule R138). -/
def State.takeFault (s : State) (op : Word) (r : Raise) : State :=
  { s with
    run := .faulted
    cause := r.cause
    faultPc := s.pc
    faultOpcode := op
    faultAddr := r.faultAddr }

/-- How an instruction's rule ends (rule R75): its effects, or fault entry on the state the Step began with. The opcode
recorded is the instruction's own word (log entry 7). -/
def settle (i : Instr) (s : State) : Except Raise State → State
  | .ok t => t
  | .error r => s.takeFault (encode i) r

/-! ## Outputs and host reads (rules R23 to R27, R158) -/

/-- RUN as the host reads it (rule R23). -/
def RunState.code : RunState → BitVec 3
  | .reset => 0
  | .loaded => 1
  | .running => 2
  | .halted => 3
  | .faulted => 4

/-- CAUSE as the host reads it (rules R24, R130). -/
def Cause.code : Cause → BitVec 3
  | .none => 0
  | .stackOverflow => 1
  | .stackUnderflow => 2
  | .addressOutOfRange => 3
  | .programTooLarge => 4

/-- HALT_REASON as the host reads it (rule R25). -/
def HaltReason.code : HaltReason → BitVec 2
  | .notHalted => 0
  | .hostRequest => 1
  | .ranOffEnd => 2

/-- `sound_active` (rules R27d, R154). -/
def State.soundActive (s : State) : Bool := s.st != 0

/-- The Step's `display_changed` output (rule R27c). -/
def State.markDisplay (s : State) : State := { s with out := { s.out with displayChanged := true } }

/-- The Step's `waiting` output (rule R27c). -/
def State.markWaiting (s : State) : State := { s with out := { s.out with waiting := true } }

/-- `report UnknownOpcode(op, pc)` (rules R27c, R136). -/
def State.reportUnknown (s : State) (op : Word) : State := { s with out := { s.out with unknown := some (op, s.pc) } }

end Sys2Proof.Machine
end

