-- ==== Sys2Proof/Machine/Flags.lean ====
section
/-! DEFINITION. The flag computations: VF is the machine's only flag (rules R12, R29), 0 or 1, written after the result
(rules R79, R107). -/

namespace Sys2Proof.Machine

/-- VF, register 15. -/
def vf : Reg := 0xF#4

/-- A flag as the byte VF holds: exactly 1 or 0 (rule R107). -/
def flagByte (b : Bool) : Byte := if b then 1 else 0

/-- The carry out of an add: the true sum exceeds 255 (rules R101, R107). -/
def carryOut (a b : Byte) : Byte := flagByte (255 < a.toNat + b.toNat)

/-- No borrow out of `a - b`: the minuend is at least the subtrahend (rules R102, R104, R107; PRESUMED, log entry 12). -/
def noBorrow (a b : Byte) : Byte := flagByte (b.toNat ≤ a.toNat)

/-- The bit a right shift drops: bit 0 of the old value (rule R103). -/
def shiftedOutRight (a : Byte) : Byte := flagByte (a.getLsbD 0)

/-- The bit a left shift drops: bit 7 of the old value (rule R105). -/
def shiftedOutLeft (a : Byte) : Byte := flagByte (a.getLsbD 7)

/-- Write the result to V[x], then the flag to VF, so that with x = F the flag stays (rules R12, R79). -/
def State.setResultFlag (s : State) (x : Reg) (result flag : Byte) : State := (s.setV x result).setV vf flag

end Sys2Proof.Machine
end

