-- ==== Sys2Proof/Machine/Operands.lean ====
section
/-! DEFINITION. The operand forms (rule R63): register, 8-bit immediate, 12-bit absolute address, 4-bit count; and what the
rules compute from a register's value before they use it. A register operand is `State.v`, an 8-bit immediate and a count
are the fields themselves. -/

namespace Sys2Proof.Machine

/-- `zext_16(NNN)`: an absolute address at 16 bits (rule R63). -/
def zext16 (nnn : Addr12) : Word := nnn.setWidth 16

/-- The effective address `I + i` is a natural number; this is its base, I read once (rule R43). -/
def State.base (s : State) : Nat := s.regI.toNat

/-- The low four bits of VX: the key or glyph it names (rules R112, R124, R125). -/
def lowNibble (v : Byte) : Nat := (v &&& 0x0F#8).toNat

/-- `keys[k]` (rules R124, R155). -/
def State.keyDown (s : State) (v : Byte) : Bool := s.keys.getLsbD (lowNibble v)

/-- The keys down now that were up at the previous Step (rule R126). -/
def State.newKeys (s : State) : Word := s.keys &&& ~~~s.kprev

/-- The least `i` in 0..15 with `w[i] = 1` (rule R126); 0 for a word of zeros, which no rule asks for. -/
def lowestKey (w : Word) : Nat := ((List.range Config.numKeys).find? (w.getLsbD ·)).getD 0

/-- The address of the glyph a register names (rule R112). -/
def glyphAddr (v : Byte) : Word := BitVec.ofNat 16 (fontBase + glyphBytes * lowNibble v)

/-- The start column of a sprite (rule R119). -/
def spriteCol (v : Byte) : Nat := v.toNat % Config.dispW
/-- The start row of a sprite (rule R119). -/
def spriteRow (v : Byte) : Nat := v.toNat % Config.dispH

/-- The hundreds, tens and ones digits of a byte (rule R113). -/
def hundreds (v : Byte) : Byte := BitVec.ofNat 8 (v.toNat / 100)
/-- The tens digit (rule R113). -/
def tens (v : Byte) : Byte := BitVec.ofNat 8 (v.toNat / 10 % 10)
/-- The ones digit (rule R113). -/
def ones (v : Byte) : Byte := BitVec.ofNat 8 (v.toNat % 10)

end Sys2Proof.Machine
end

