-- ==== Sys2Proof/Machine/Alu.lean ====
section
/-! DEFINITION. Register load, arithmetic, logic, shift and random (41_alu.md). Each reads its source registers, writes
V[X], then where it has one the flag to VF, then advances PC by 2. None raises an exception. -/

namespace Sys2Proof.Machine

/-- `6XNN` LD_I (rule R95). -/
def execLdI (x : Reg) (nn : Byte) (s : State) : Host.Outcome State Fault Refusal := .next (s.setV x nn).advance

/-- `7XNN` ADD_I (rule R96): wraps modulo 256, VF not written. -/
def execAddI (x : Reg) (nn : Byte) (s : State) : Host.Outcome State Fault Refusal :=
  .next (s.setV x (s.v x + nn)).advance

/-- `8XY0` LD_R (rule R97). -/
def execLdR (x y : Reg) (s : State) : Host.Outcome State Fault Refusal := .next (s.setV x (s.v y)).advance

/-- `8XY1` OR (rule R98). -/
def execOr (x y : Reg) (s : State) : Host.Outcome State Fault Refusal := .next (s.setV x (s.v x ||| s.v y)).advance

/-- `8XY2` AND (rule R99). -/
def execAnd (x y : Reg) (s : State) : Host.Outcome State Fault Refusal := .next (s.setV x (s.v x &&& s.v y)).advance

/-- `8XY3` XOR (rule R100). -/
def execXor (x y : Reg) (s : State) : Host.Outcome State Fault Refusal := .next (s.setV x (s.v x ^^^ s.v y)).advance

/-- `8XY4` ADD_R (rule R101). -/
def execAddR (x y : Reg) (s : State) : Host.Outcome State Fault Refusal :=
  .next (s.setResultFlag x (s.v x + s.v y) (carryOut (s.v x) (s.v y))).advance

/-- `8XY5` SUB, VX minus VY (rule R102). -/
def execSub (x y : Reg) (s : State) : Host.Outcome State Fault Refusal :=
  .next (s.setResultFlag x (s.v x - s.v y) (noBorrow (s.v x) (s.v y))).advance

/-- `8XY6` SHR (rule R103): VX in place, Y ignored (log entry 13). -/
def execShr (x _y : Reg) (s : State) : Host.Outcome State Fault Refusal :=
  .next (s.setResultFlag x (s.v x >>> 1) (shiftedOutRight (s.v x))).advance

/-- `8XY7` SUBN, VY minus VX (rule R104). -/
def execSubn (x y : Reg) (s : State) : Host.Outcome State Fault Refusal :=
  .next (s.setResultFlag x (s.v y - s.v x) (noBorrow (s.v y) (s.v x))).advance

/-- `8XYE` SHL (rule R105): VX in place, Y ignored (log entry 13). -/
def execShl (x _y : Reg) (s : State) : Host.Outcome State Fault Refusal :=
  .next (s.setResultFlag x (s.v x <<< 1) (shiftedOutLeft (s.v x))).advance

/-- `CXNN` RND (rule R106): the Step's random byte under the mask NN. -/
def execRnd (x : Reg) (nn : Byte) (s : State) : Host.Outcome State Fault Refusal :=
  .next (s.setV x (s.rnd &&& nn)).advance

end Sys2Proof.Machine
end

