-- ==== Sys2Proof/Machine/Display.lean ====
section
/-! DEFINITION. Display (43_display.md): clear and draw. -/

namespace Sys2Proof.Machine

/-- `00E0` CLS (rule R118): every pixel 0; `display_changed` raised; VF not written. -/
def execCls (s : State) : Host.Outcome State Fault Refusal :=
  .next ({ s with disp := Display.blank }.markDisplay).advance

/-- `DXYN` DRW (rule R119): the N sprite bytes are read, drawn from (VX mod 64, VY mod 32) by XOR and clipped at the
right and bottom edges; VF <- 1 if a pixel that was 1 was cleared, else 0; `display_changed` raised. -/
def drwRule (x y : Reg) (n : Count) (s : State) : Except Raise State := do
  rangeCheck s.base n.toNat
  let bytes ← s.memReads s.base n.toNat
  let drawn := drawRows (spriteCol (s.v x)) (spriteRow (s.v y)) bytes (s.disp, false)
  .ok ((({ s with disp := drawn.1 }.setV vf (flagByte drawn.2)).markDisplay).advance)
def execDrw (x y : Reg) (n : Count) (s : State) : Host.Outcome State Fault Refusal :=
  .next (settle (.drw x y n) s (drwRule x y n s))

end Sys2Proof.Machine
end

