-- ==== Sys2Proof/Machine/Flow.lean ====
section
/-! DEFINITION. Control transfer (40_flow.md): return, jump, call, computed jump and the register skips. -/

namespace Sys2Proof.Machine

/-- `00EE` RET (rule R85): pop, and PC <- the popped value. -/
def retRule (s : State) : Except Raise State := do
  let (t, s') ← s.pop
  .ok (s'.setPc t)
def execRet (s : State) : Host.Outcome State Fault Refusal := .next (settle .ret s (retRule s))

/-- `1NNN` JP (rule R86). -/
def execJp (nnn : Addr12) (s : State) : Host.Outcome State Fault Refusal := .next (s.setPc (zext16 nnn))

/-- `2NNN` CALL (rule R87): push the address of the next instruction, PC <- NNN. -/
def callRule (nnn : Addr12) (s : State) : Except Raise State := do
  let s' ← s.push (s.pc + 2)
  .ok (s'.setPc (zext16 nnn))
def execCall (nnn : Addr12) (s : State) : Host.Outcome State Fault Refusal :=
  .next (settle (.call nnn) s (callRule nnn s))

/-- The target of `BNNN`: `NNN + V[0]`, a natural number (rule R88). -/
def jpV0Target (nnn : Addr12) (s : State) : Nat := nnn.toNat + (s.v 0).toNat

/-- `BNNN` JP_V0 (rule R88): a target above 0xFFF is an error, else PC <- the target. -/
def jpV0Rule (nnn : Addr12) (s : State) : Except Raise State :=
  if lastAddr < jpV0Target nnn s then .error (.addressOutOfRange (jpV0Target nnn s))
  else .ok (s.setPc (BitVec.ofNat 16 (jpV0Target nnn s)))
def execJpV0 (nnn : Addr12) (s : State) : Host.Outcome State Fault Refusal :=
  .next (settle (.jpV0 nnn) s (jpV0Rule nnn s))

/-- `3XNN` SE_I (rule R89). -/
def execSeI (x : Reg) (nn : Byte) (s : State) : Host.Outcome State Fault Refusal := .next (s.skipIf (s.v x == nn))

/-- `4XNN` SNE_I (rule R90). -/
def execSneI (x : Reg) (nn : Byte) (s : State) : Host.Outcome State Fault Refusal := .next (s.skipIf (s.v x != nn))

/-- `5XY0` SE_R (rule R91). -/
def execSeR (x y : Reg) (s : State) : Host.Outcome State Fault Refusal := .next (s.skipIf (s.v x == s.v y))

/-- `9XY0` SNE_R (rule R92). -/
def execSneR (x y : Reg) (s : State) : Host.Outcome State Fault Refusal := .next (s.skipIf (s.v x != s.v y))

end Sys2Proof.Machine
end

