-- ==== Sys2Proof/Machine/IndexMemory.lean ====
section
/-! DEFINITION. Index register and memory (42_index_memory.md). The effective address is the natural number `I + i` with I
read once; the whole range is checked before anything is written (rule R46); I is not changed by an access. -/

namespace Sys2Proof.Machine

/-- `ANNN` LD_IDX (rule R110). -/
def execLdIdx (nnn : Addr12) (s : State) : Host.Outcome State Fault Refusal := .next (s.setRegI (zext16 nnn)).advance

/-- `FX1E` ADD_IDX (rule R111): modulo 65536, VF not written. -/
def execAddIdx (x : Reg) (s : State) : Host.Outcome State Fault Refusal :=
  .next (s.setRegI (s.regI + (s.v x).setWidth 16)).advance

/-- `FX29` LD_F (rule R112). -/
def execLdF (x : Reg) (s : State) : Host.Outcome State Fault Refusal := .next (s.setRegI (glyphAddr (s.v x))).advance

/-- `FX33` LD_B (rule R113): three digits at I, I+1, I+2, most significant first. -/
def ldBRule (x : Reg) (s : State) : Except Raise State := do
  rangeCheck s.base 3
  let s1 ← s.memWrite s.base (hundreds (s.v x))
  let s2 ← s1.memWrite (s.base + 1) (tens (s.v x))
  let s3 ← s2.memWrite (s.base + 2) (ones (s.v x))
  .ok s3.advance
def execLdB (x : Reg) (s : State) : Host.Outcome State Fault Refusal := .next (settle (.ldB x) s (ldBRule x s))

/-- The copy loop of `FX55` from register `i` on, `n` registers left: MEM[a + i] <- V[i], V[i] read at this moment
(rule R114). -/
def storeRegs (a : Nat) : Nat → Nat → State → Except Raise State
  | 0, _, s => .ok s
  | n + 1, i, s => do
    let s' ← s.memWrite (a + i) (s.v (BitVec.ofNat 4 i))
    storeRegs a n (i + 1) s'

/-- `FX55` ST_REGS (rule R114). -/
def stRegsRule (x : Reg) (s : State) : Except Raise State := do
  rangeCheck s.base (x.toNat + 1)
  let s' ← storeRegs s.base (x.toNat + 1) 0 s
  .ok s'.advance
def execStRegs (x : Reg) (s : State) : Host.Outcome State Fault Refusal :=
  .next (settle (.stRegs x) s (stRegsRule x s))

/-- The copy loop of `FX65` from register `i` on, `n` registers left: V[i] <- MEM[a + i], MEM read at this moment
(rule R115). -/
def loadRegs (a : Nat) : Nat → Nat → State → Except Raise State
  | 0, _, s => .ok s
  | n + 1, i, s => do
    let b ← s.memRead (a + i)
    loadRegs a n (i + 1) (s.setV (BitVec.ofNat 4 i) b)

/-- `FX65` LD_REGS (rule R115). -/
def ldRegsRule (x : Reg) (s : State) : Except Raise State := do
  rangeCheck s.base (x.toNat + 1)
  let s' ← loadRegs s.base (x.toNat + 1) 0 s
  .ok s'.advance
def execLdRegs (x : Reg) (s : State) : Host.Outcome State Fault Refusal :=
  .next (settle (.ldRegs x) s (ldRegsRule x s))

end Sys2Proof.Machine
end

