-- ==== Sys2Proof/Machine/KeypadTimers.lean ====
section
/-! DEFINITION. Keypad and timer instructions (44_keypad_timers.md). `keys` is the key state sampled for this Step. -/

namespace Sys2Proof.Machine

/-- `EX9E` SKP (rule R124): skip if the key named by the low four bits of VX is pressed. -/
def execSkp (x : Reg) (s : State) : Host.Outcome State Fault Refusal := .next (s.skipIf (s.keyDown (s.v x)))

/-- `EXA1` SKNP (rule R125): skip if it is not pressed. -/
def execSknp (x : Reg) (s : State) : Host.Outcome State Fault Refusal := .next (s.skipIf (!s.keyDown (s.v x)))

/-- `FX07` LD_VX_DT (rule R127). -/
def execLdVxDt (x : Reg) (s : State) : Host.Outcome State Fault Refusal := .next (s.setV x s.dt).advance

/-- `FX0A` LD_VX_K (rule R126): while no key goes down PC is held and `waiting` raised; else the lowest new key goes to
VX. -/
def execLdVxK (x : Reg) (s : State) : Host.Outcome State Fault Refusal :=
  .next (if s.newKeys = 0 then s.markWaiting else (s.setV x (BitVec.ofNat 8 (lowestKey s.newKeys))).advance)

/-- `FX15` LD_DT_VX (rule R128). -/
def execLdDtVx (x : Reg) (s : State) : Host.Outcome State Fault Refusal := .next (s.setDt (s.v x)).advance

/-- `FX18` LD_ST_VX (rule R129). -/
def execLdStVx (x : Reg) (s : State) : Host.Outcome State Fault Refusal := .next (s.setSt (s.v x)).advance

end Sys2Proof.Machine
end

