-- ==== Sys2Proof/Machine/Events.lean ====
section
/-! DEFINITION. The six events (rule R7): what each does in each run state (rule R142), an event with no row there having
no effect (rule R145). -/

namespace Sys2Proof.Machine

/-- The event that comes next: the oldest one already due, else a free one (log entry 1). -/
def State.nextEvent (s : State) : Event :=
  match s.inbox with
  | [] => Config.envEvent s.eventNo
  | e :: _ => e

/-- The state an event finds: the event is no longer due, and no output is raised (rule R27c). -/
def State.takeEvent (s : State) : State :=
  { s with inbox := s.inbox.tail, eventNo := s.eventNo + 1, out := StepOutput.none }

/-- Reset, in any run state (rule R170): all state to its reset value. The events still due stay due. -/
def resetEvent (s : State) : State := { State.reset with inbox := s.inbox, eventNo := s.eventNo }

/-- Load (rules R173, R174): font, ROM, PC <- 0x200, CAUSE <- 0, RUN <- Loaded; a ROM too large only sets CAUSE. -/
def loadEvent (font : Vector Byte Config.fontBytes) (rom : List Byte) (s : State) : State :=
  if s.run = .reset then
    if Config.progMax < rom.length then { s with cause := .programTooLarge }
    else
      { ({ s with mem := (s.mem.writeAll fontBase font.toList).writeAll Config.progBase rom }).setPc entry with
        cause := .none, run := .loaded }
  else s

/-- Run: Loaded to Running (rule R143). -/
def runEvent (s : State) : State := if s.run = .loaded then { s with run := .running } else s

/-- HaltReq: Running to Halted (rule R144). -/
def haltReqEvent (s : State) : State :=
  if s.run = .running then { s with run := .halted, haltReason := .hostRequest } else s

/-- A timer after a Tick: one less while nonzero (rule R150). -/
def countDown (v : Byte) : Byte := if v = 0 then 0 else v - 1

/-- Tick, in Running: both timers count down (rules R150, R151). -/
def tickEvent (s : State) : State :=
  if s.run = .running then (s.setDt (countDown s.dt)).setSt (countDown s.st) else s

/-- The halt check: PC ran off the end of memory (rule R77). -/
def State.ranOff (s : State) : Bool := lastFetch < s.pc.toNat

/-- The word at PC, high byte first (rules R48, R76). -/
def State.fetch (s : State) : Word := s.word s.pc.toNat

/-- The inputs a Step samples, once (rules R26, R75). -/
def State.sample (s : State) (keys : Word) (rnd : Byte) : State := { s with keys := keys, rnd := rnd }

/-- The end of a Step: KPREV <- keys, unless the Step faulted (rules R22, R75). -/
def State.endStep (s : State) : State := if s.run = .faulted then s else { s with kprev := s.keys }

/-- A Step in Running: halt check, fetch, decode, execute (rules R75, R140). -/
def coreStep (keys : Word) (rnd : Byte) (s : State) : Host.Outcome State Fault Refusal :=
  if s.ranOff then .next { s with run := .halted, haltReason := .ranOffEnd }
  else
    match decode s.fetch with
    | .unknownOpcode op => .next (((s.sample keys rnd).reportUnknown op).advance).endStep
    | .instr i =>
      match exec i (s.sample keys rnd) with
      | .next t => .next t.endStep
      | .fault f => .fault f
      | .refused r => .refused r

/-- What each event does (rules R142, R145). -/
def deliver (e : Event) (s : State) : Host.Outcome State Fault Refusal :=
  match e with
  | .reset => .next (resetEvent s)
  | .load font rom => .next (loadEvent font rom s)
  | .run => .next (runEvent s)
  | .step keys rnd => if s.run = .running then coreStep keys rnd s else .next s
  | .tick => .next (tickEvent s)
  | .haltReq => .next (haltReqEvent s)

/-- Where the host's probe places an instruction: at PC when the machine is Running and the word there would be fetched
and lies above the register window, else at ENTRY, as Load places a program (log entry 4). -/
def State.placeAt (s : State) : Word :=
  if s.run = .running ∧ windowEnd ≤ s.pc.toNat ∧ s.pc.toNat ≤ lastFetch then s.pc else entry

/-- The state with the word stored at its place, PC there, RUN = Running, and a Step due next (log entry 4). -/
def State.withWord (s : State) (w : Word) : State :=
  { ((s.setPc s.placeAt).setWord s.placeAt.toNat w) with run := .running, inbox := .step s.keys s.rnd :: s.inbox }

end Sys2Proof.Machine
end

