-- ==== Sys2Proof/Machine/Step.lean ====
section
/-! DEFINITION. One step of the model is one event (rule R7), and the host's probe of it. -/

namespace Sys2Proof.Machine

/-- One step: the next event, delivered to the state it finds (rules R7, R53). -/
def step (s : State) : Host.Outcome State Fault Refusal := Sys2Proof.Machine.deliver s.nextEvent s.takeEvent

/-- The state with an instruction of the opcode table stored where `step` fetches its next instruction, and the machine
set so that the very next step runs it (log entry 4). -/
def State.withFetchWord (s : State) (nbits w : Nat) : State := s.withWord (tableWord nbits w)

end Sys2Proof.Machine
end

