-- ==== Sys2Proof/Safety.lean ====
section
/-! DEFINITION. What counts as a safe and a finished run (rule R147), what an instruction leaves alone, and the
invariant of the machine. -/

namespace Sys2Proof.Machine

/-- A safe state: not Faulted (rule R147). -/
abbrev State.Safe (s : State) : Prop := s.run ≠ .faulted

/-- A normal end: Halted is final, Faulted is not (rules R146, R147). -/
abbrev State.Final (s : State) : Prop := s.run = .halted

/-- The three kinds of fault a Running machine can take (rules R130, R147). -/
def Cause.isFault : Cause → Bool
  | .stackOverflow => true
  | .stackUnderflow => true
  | .addressOutOfRange => true
  | _ => false

/-- The frame of an instruction that may write only the bytes at `as`: every other byte of memory reads as before (the
registers V, I, PC, DT, ST among them, rule R19), and stack, display, KPREV, RUN, fault record, HALT_REASON and the model's
own fields are unchanged. -/
def State.WritesOnly (s t : State) (as : List Nat) : Prop :=
  t = { s with mem := t.mem } ∧ ∀ a, a ∉ as → t.byte a = s.byte a

/-- `t` is `s` after fault entry for instruction `i` with the given kind and offending address: RUN, CAUSE, FAULT_PC (the
address of the instruction), FAULT_OPCODE and FAULT_ADDR are written and nothing else changes (rules R137, R138). -/
def State.FaultEntry (s t : State) (i : Instr) (c : Cause) (addr : Nat) : Prop :=
  t = { s with
    run := .faulted, cause := c, faultPc := s.pc, faultOpcode := encode i, faultAddr := BitVec.ofNat 16 addr }

/-- When an instruction raises a fault (rule R135). -/
def faultsIn (i : Instr) (s : State) : Prop :=
  match i with
  | .call _ => s.sp = Config.stackCap
  | .ret => s.sp = 0
  | .jpV0 nnn => lastAddr < nnn.toNat + (s.v 0).toNat
  | .drw _ _ n => 0 < n.toNat ∧ lastAddr < s.regI.toNat + n.toNat - 1
  | .ldB _ => lastAddr < s.regI.toNat + 2
  | .stRegs x => lastAddr < s.regI.toNat + x.toNat
  | .ldRegs x => lastAddr < s.regI.toNat + x.toNat
  | _ => False

/-- Does the sprite of `DXYN` have a 1 bit on the pixel in column `px`, row `py` of the screen? Its start is
(VX mod 64, VY mod 32); it is eight columns wide and N rows high, clipped at the edges; row `r` is the byte MEM[I + r],
bit 7 leftmost (rules R119, R121). -/
def State.spriteBit (s : State) (x y : Reg) (n : Count) (px py : Nat) : Bool :=
  let x0 := (s.v x).toNat % 64
  let y0 := (s.v y).toNat % 32
  decide (px < 64 ∧ py < 32 ∧ x0 ≤ px ∧ px < x0 + 8 ∧ y0 ≤ py ∧ py < y0 + n.toNat) &&
    (s.byte (s.regI.toNat + (py - y0))).getLsbD (7 - (px - x0))

/-- The bytes of the program counter (rule R17). -/
def pcBytes : List Nat := [pcAddr, pcAddr + 1]

/-- The bytes of the index register (rule R17). -/
def iBytes : List Nat := [iAddr, iAddr + 1]

/-- The invariant of the machine. Memory is canonical; the stack holds at most 16 entries (rule R20); the status
registers agree with each other and with the run state (rules R23 to R25, R134, R137, R142, R147). -/
abbrev State.Inv (s : State) : Prop :=
  s.mem.wf ∧ s.sp ≤ Config.stackCap ∧
  (s.run = .faulted ↔ s.cause.isFault = true) ∧
  (s.cause = .programTooLarge → s.run = .reset) ∧
  (s.run = .halted ↔ s.haltReason ≠ .notHalted) ∧
  (s.cause.isFault = false → s.faultPc = 0 ∧ s.faultOpcode = 0) ∧
  (s.cause ≠ .addressOutOfRange → s.faultAddr = 0) ∧
  (s.cause = .addressOutOfRange → lastAddr < s.faultAddr.toNat) ∧
  (s.run = .faulted → s.faultPc = s.pc ∧ s.pc.toNat ≤ lastFetch) ∧
  (s.haltReason = .ranOffEnd → lastFetch < s.pc.toNat) ∧
  (s.run = .reset → s.mem = [] ∧ s.stack = [] ∧ s.disp = Display.blank ∧ s.kprev = 0) ∧
  (s.run = .loaded → s.pc = entry ∧ s.stack = [] ∧ s.disp = Display.blank ∧ s.kprev = 0)

end Sys2Proof.Machine
end

