-- ==== Sys2Proof/Certificates/Slice0/Obligations.lean ====
section
/-! DEFINITION. The statements for the provers, in the order of the spec's files. Each docstring names the rule it
formalises; where a statement rests on a decision the spec marks as its own choice, the docstring says so. -/

open Sys2Proof Sys2Proof.Machine

/-! ## Encoding (30_encoding.md) -/

/-- One word of every row of rule R69, taken from the spec's examples and vectors (S1, S9, the examples of the
instruction rules), decodes to the instruction and the operands the spec names; 0x5121 and 0x0000 decode to none (rule
R71). The pairing of the class 8 digits is decision D35 (log entry 11), the byte order decision D2 (log entry 6). -/
def Obligations.SpecExampleWordsDecode : Prop :=
  (decodeTableWord 16 0x00E0 = some .cls ∧ decodeTableWord 16 0x00EE = some .ret ∧
    decodeTableWord 16 0x1206 = some (.jp 0x206) ∧ decodeTableWord 16 0x2300 = some (.call 0x300) ∧
    decodeTableWord 16 0x3A12 = some (.seI 0xA 0x12) ∧ decodeTableWord 16 0x4A12 = some (.sneI 0xA 0x12) ∧
    decodeTableWord 16 0x5AB0 = some (.seR 0xA 0xB) ∧ decodeTableWord 16 0x9AB0 = some (.sneR 0xA 0xB) ∧
    decodeTableWord 16 0xBFFF = some (.jpV0 0xFFF)) ∧
  (decodeTableWord 16 0x6A9D = some (.ldI 0xA 0x9D) ∧ decodeTableWord 16 0x7103 = some (.addI 1 0x03) ∧
    decodeTableWord 16 0x8120 = some (.ldR 1 2) ∧ decodeTableWord 16 0x8121 = some (.orR 1 2) ∧
    decodeTableWord 16 0x8122 = some (.andR 1 2) ∧ decodeTableWord 16 0x8123 = some (.xorR 1 2) ∧
    decodeTableWord 16 0x8344 = some (.addR 3 4) ∧ decodeTableWord 16 0x8125 = some (.sub 1 2) ∧
    decodeTableWord 16 0x8126 = some (.shr 1 2) ∧ decodeTableWord 16 0x8EF7 = some (.subn 0xE 0xF) ∧
    decodeTableWord 16 0x812E = some (.shl 1 2) ∧ decodeTableWord 16 0xC30F = some (.rnd 3 0x0F)) ∧
  (decodeTableWord 16 0xA300 = some (.ldIdx 0x300) ∧ decodeTableWord 16 0xF21E = some (.addIdx 2) ∧
    decodeTableWord 16 0xF029 = some (.ldF 0) ∧ decodeTableWord 16 0xF933 = some (.ldB 9) ∧
    decodeTableWord 16 0xF255 = some (.stRegs 2) ∧ decodeTableWord 16 0xF265 = some (.ldRegs 2)) ∧
  (decodeTableWord 16 0xD015 = some (.drw 0 1 5) ∧ decodeTableWord 16 0xE29E = some (.skp 2) ∧
    decodeTableWord 16 0xE1A1 = some (.sknp 1) ∧ decodeTableWord 16 0xF407 = some (.ldVxDt 4) ∧
    decodeTableWord 16 0xF30A = some (.ldVxK 3) ∧ decodeTableWord 16 0xF315 = some (.ldDtVx 3) ∧
    decodeTableWord 16 0xF318 = some (.ldStVx 3)) ∧
  decodeTableWord 16 0x5121 = none ∧ decodeTableWord 16 0x0000 = none

/-- S1, the round trip of rule R64: decoding the bytes of any instruction, whatever follows them, gives it back with
every operand, for every value of every operand. -/
def Obligations.DecodeOfEncodeIsTheInstruction : Prop :=
  ∀ (i : Instr) (rest : List Byte), decodeBytes (encodeBytes i ++ rest) = some (.instr i, rest)

/-- The other direction: a word that decodes to an instruction is that instruction's encoding, so no bit of the word is
lost (rules R61, R68: the Y field of SHR and SHL is kept though ignored). -/
def Obligations.EncodeOfDecodeIsTheWord : Prop :=
  ∀ (w : Word) (i : Instr), decode w = .instr i → encode i = w

/-- A word is THE instruction whose mask and match it meets (rule R69): what it decodes to has a row the word meets, and a
word that meets an instruction's row decodes to an instruction with that row. A word that meets no row is an unknown
opcode (rule R71). Exact matching is decision D22, the class 8 digits decision D35 (log entries 22, 11). -/
def Obligations.WordDecodesIffItMatchesARow : Prop :=
  ∀ w : Word,
    (∀ i, decode w = .instr i → i.row.accepts w = true) ∧
    (∀ i : Instr, i.row.accepts w = true → ∃ j, decode w = .instr j ∧ j.row = i.row) ∧
    ((∃ i, decode w = .instr i) ↔ wordWellFormed w = true) ∧
    (wordWellFormed w = false → decode w = .unknownOpcode w)

/-- "No two rows match the same word" (rule R69). -/
def Obligations.NoTwoRowsMatchTheSameWord : Prop :=
  ∀ w : Word, (opcodeMap.filter (·.accepts w)).length ≤ 1

/-! ## State, reset and the events of the host (10_state.md, 60_exceptions.md, 70_reset_and_hazards.md) -/

/-- The table of rule R31. The reset value of DISP, KPREV and the status registers is decision D26, D23, D24 of the spec. -/
def Obligations.ResetStateHoldsTheResetTable : Prop :=
  (∀ a, State.reset.byte a = 0) ∧ (∀ x, State.reset.v x = 0) ∧ State.reset.regI = 0 ∧ State.reset.pc = 0 ∧
  State.reset.dt = 0 ∧ State.reset.st = 0 ∧ State.reset.stack = [] ∧ State.reset.sp = 0 ∧
  (∀ x y, State.reset.pixel x y = false) ∧ State.reset.kprev = 0 ∧ State.reset.run = .reset ∧
  State.reset.run.code = 0 ∧ State.reset.cause.code = 0 ∧ State.reset.faultPc = 0 ∧ State.reset.faultOpcode = 0 ∧
  State.reset.faultAddr = 0 ∧ State.reset.haltReason.code = 0

/-- Reset in any run state gives every piece of the spec's state its reset value (rule R170; D26). The events still due
and their count are the model's own (log entry 1). -/
def Obligations.ResetEventActsInEveryState : Prop :=
  ∀ s : State, s.nextEvent = .reset →
    ∃ t, step s = .next t ∧ (∀ a, t.byte a = 0) ∧ t.sp = 0 ∧ (∀ x y, t.pixel x y = false) ∧ t.kprev = 0 ∧
      t.run = .reset ∧ t.cause = .none ∧ t.faultPc = 0 ∧ t.faultOpcode = 0 ∧ t.faultAddr = 0 ∧
      t.haltReason = .notHalted ∧ t.inbox = s.inbox.tail

/-- A Load that fits (rule R173): the font at FONT_BASE, the ROM at 0x200, PC = 0x200, CAUSE = 0, RUN = Loaded; every other
byte but PC's, and the rest of the state, as before. FONT_BASE and the entry point are decisions D3 and D27. -/
def Obligations.LoadPlacesFontAndProgram : Prop :=
  ∀ (s : State) (font : Vector Byte 80) (rom : List Byte), s.run = .reset → rom.length ≤ 3584 →
    ∃ t, deliver (.load font rom) s = .next t ∧
      (∀ (j : Nat) (h : j < 80), t.byte (0x050 + j) = font[j]) ∧
      (∀ (j : Nat) (h : j < rom.length), t.byte (0x200 + j) = rom[j]) ∧
      (∀ a, ¬(0x050 ≤ a ∧ a < 0x0A0) → ¬(0x200 ≤ a ∧ a < 0x200 + rom.length) → a ∉ pcBytes → t.byte a = s.byte a) ∧
      t.pc = 0x200 ∧ t = { s with mem := t.mem, cause := .none, run := .loaded }

/-- A Load that is too large changes CAUSE alone, to ProgramTooLarge, and a later Load that fits succeeds and clears it
(rules R134, R174; the code is decision D23). -/
def Obligations.LoadTooLargeOnlySetsCause : Prop :=
  ∀ (s : State) (font font' : Vector Byte 80) (rom rom' : List Byte),
    s.run = .reset → 3584 < rom.length → rom'.length ≤ 3584 →
    ∃ t, deliver (.load font rom) s = .next t ∧ t = { s with cause := .programTooLarge } ∧ t.cause.code = 4 ∧
      ∃ u, deliver (.load font' rom') t = .next u ∧ u.run = .loaded ∧ u.cause = .none

/-- What a program finds at its first instruction after Reset, Load and Run (rule R177, derived there). -/
def Obligations.FirstInstructionState : Prop :=
  ∀ (s : State) (font : Vector Byte 80) (rom : List Byte) (rest : List Event), rom.length ≤ 3584 →
    s.inbox = .reset :: .load font rom :: .run :: rest →
    ∃ t, Host.Core.run core 3 s = .next t ∧ t.run = .running ∧ t.pc = 0x200 ∧ (∀ x, t.v x = 0) ∧ t.regI = 0 ∧
      t.dt = 0 ∧ t.st = 0 ∧ t.sp = 0 ∧ (∀ x y, t.pixel x y = false) ∧
      (∀ (j : Nat) (h : j < rom.length), t.byte (0x200 + j) = rom[j]) ∧
      (∀ j, rom.length ≤ j → t.byte (0x200 + j) = 0) ∧
      (∀ (j : Nat) (h : j < 80), t.byte (0x050 + j) = font[j]) ∧
      (∀ a, a < 0x200 → ¬(0x050 ≤ a ∧ a < 0x0A0) → a ∉ pcBytes → t.byte a = 0) ∧ t.inbox = rest

/-- Run moves Loaded to Running and HaltReq moves Running to Halted, and each changes nothing else (rules R143, R144;
decision D24). -/
def Obligations.RunAndHaltReqMoveTheRunState : Prop :=
  ∀ s : State,
    (s.run = .loaded → deliver .run s = .next { s with run := .running }) ∧
    (s.run = .running → ∃ t, deliver .haltReq s = .next t ∧
      t = { s with run := .halted, haltReason := .hostRequest } ∧ t.haltReason.code = 1)

/-- An event in a run state with no row for it has no effect at all (rule R145; decisions D24, D25). -/
def Obligations.EventsWithoutARowHaveNoEffect : Prop :=
  ∀ s : State,
    (∀ font rom, s.run ≠ .reset → deliver (.load font rom) s = .next s) ∧
    (s.run ≠ .loaded → deliver .run s = .next s) ∧
    (s.run ≠ .running →
      (∀ keys rnd, deliver (.step keys rnd) s = .next s) ∧ deliver .tick s = .next s ∧ deliver .haltReq s = .next s)

/-- The run-state machine (rule R142): whenever a step changes RUN, the change is a row of the table, and the event and
the condition of that row held. -/
def Obligations.RunStateChangesOnlyByTheTable : Prop :=
  ∀ s t : State, step s = .next t → t.run ≠ s.run →
    (s.nextEvent = .reset ∧ t.run = .reset) ∨
    (s.run = .reset ∧ t.run = .loaded ∧ ∃ font rom, s.nextEvent = .load font rom ∧ rom.length ≤ 3584) ∨
    (s.run = .loaded ∧ t.run = .running ∧ s.nextEvent = .run) ∨
    (s.run = .running ∧ t.run = .halted ∧ t.haltReason = .hostRequest ∧ s.nextEvent = .haltReq) ∨
    (s.run = .running ∧ t.run = .halted ∧ t.haltReason = .ranOffEnd ∧ 0xFFE < s.pc.toNat ∧
      ∃ k r, s.nextEvent = .step k r) ∨
    (s.run = .running ∧ t.run = .faulted ∧ s.pc.toNat ≤ 0xFFE ∧
      ∃ k r i, s.nextEvent = .step k r ∧ decode s.fetch = .instr i ∧ faultsIn i s)

/-- Halted and Faulted are terminal: only Reset leaves them, and until then nothing of the spec's state changes (rules R139,
R146; that the events without a row are ignored is decision D24, log entry 23). What the step does change is the model's
own: the event is taken off `inbox` and counted in `eventNo` and the outputs are cleared (log entries 3, 27). -/
def Obligations.HaltedAndFaultedAreTerminal : Prop :=
  ∀ s : State, s.run = .halted ∨ s.run = .faulted → s.nextEvent ≠ .reset → step s = .next s.takeEvent

/-- The Tick in Running (rule R150): each timer counts down while nonzero and never below zero, and nothing else
changes. -/
def Obligations.TickCountsDownBothTimers : Prop :=
  ∀ s : State, s.run = .running →
    ∃ t, deliver .tick s = .next t ∧ (t.dt).toNat = (s.dt).toNat - 1 ∧ (t.st).toNat = (s.st).toNat - 1 ∧
      s.WritesOnly t [dtAddr, stAddr]

/-- S7: a timer that holds `n` and is not written reads 0 after `n` Ticks, and after `k` of them `n - k` (rules R150,
R152). -/
def Obligations.TimersReachZeroAfterTheirCountOfTicks : Prop :=
  ∀ (k : Nat) (s : State) (rest : List Event), s.run = .running → s.inbox = List.replicate k .tick ++ rest →
    ∃ t, Host.Core.run core k s = .next t ∧ t.dt.toNat = s.dt.toNat - k ∧ t.st.toNat = s.st.toNat - k ∧
      t.inbox = rest ∧ t.run = .running ∧ t.pc = s.pc ∧ (∀ x, t.v x = s.v x)

/-- At reset the invariant of the machine holds (rule R31). Its clauses on DISP, KPREV, the fault record and HALT_REASON rest
on decisions D23, D24 and D26 of the spec (log entry 23). -/
def Obligations.InvariantHoldsAtReset : Prop := State.Inv State.reset

/-- Every step keeps the invariant of the machine, whatever the next event is: canonical memory, at most 16 calls
outstanding, and the status registers consistent with the run state (rules R20, R23 to R25, R134, R138, R142, R147). -/
def Obligations.EveryStepKeepsTheInvariant : Prop :=
  ∀ s t : State, s.Inv → step s = .next t → t.Inv

/-! ## The Step (30_encoding.md) -/

/-- A Step in Running with PC in range runs the instruction the two bytes at PC decode to: `step` is `exec` of it on the
state with the Step's inputs, and afterwards KPREV takes the Step's keys unless the instruction faulted (rules R75,
R76). -/
def Obligations.StepRunsTheDecodedInstruction : Prop :=
  ∀ (s : State) (i : Instr) (keys : Word) (rnd : Byte),
    s.nextEvent = .step keys rnd → s.run = .running → s.pc.toNat ≤ 0xFFE →
    decodeBytes [s.byte s.pc.toNat, s.byte (s.pc.toNat + 1)] = some (.instr i, []) →
    step s = (match exec i (s.takeEvent.sample keys rnd) with
      | .next t => .next (if t.run = .faulted then t else { t with kprev := keys })
      | .fault f => .fault f
      | .refused r => .refused r)

/-- An unknown opcode is reported and skipped: PC + 2, KPREV <- keys, nothing else (rules R71, R136; the form of the
report is decision D22, log entry 3). -/
def Obligations.UnknownOpcodeIsReportedAndSkipped : Prop :=
  ∀ (s : State) (keys : Word) (rnd : Byte),
    s.nextEvent = .step keys rnd → s.run = .running → s.pc.toNat ≤ 0xFFE → wordWellFormed s.fetch = false →
    ∃ t, step s = .next t ∧ t.pc = s.pc + 2 ∧ t.kprev = keys ∧
      t.out = ⟨false, some (s.fetch, s.pc), false⟩ ∧ (∀ a, a ∉ pcBytes → t.byte a = s.byte a) ∧
      t = { s.takeEvent with mem := t.mem, kprev := keys, keys := keys, rnd := rnd, out := t.out }

/-- A Step that finds PC above 0xFFE fetches nothing and halts, PC and all else unchanged (rules R77, R140; decision
D10). -/
def Obligations.PcPastTheEndHalts : Prop :=
  ∀ (s : State) (keys : Word) (rnd : Byte), s.nextEvent = .step keys rnd → s.run = .running → 0xFFE < s.pc.toNat →
    ∃ t, step s = .next t ∧ t = { s.takeEvent with run := .halted, haltReason := .ranOffEnd } ∧
      t.pc = s.pc ∧ t.haltReason.code = 2

/-- Which instruction can fault, and exactly when (rule R135, derived there). -/
def Obligations.InstructionFaultsExactlyWhenTheTableSays : Prop :=
  ∀ (i : Instr) (s t : State), s.run = .running → exec i s = .next t → (t.run = .faulted ↔ faultsIn i s)

/-- Faults are precise: a faulting instruction has changed nothing but RUN and the fault record (rules R137, R138;
decision D9). -/
def Obligations.FaultsArePrecise : Prop :=
  ∀ (i : Instr) (s t : State), s.run = .running → exec i s = .next t → t.run = .faulted →
    ∃ c addr, s.FaultEntry t i c addr ∧ c.isFault = true ∧ (c ≠ .addressOutOfRange → addr = 0)

/-- Only CALL and RET change the stack, and only CLS and DRW the display (rules R20, R21). -/
def Obligations.StackAndDisplayHaveTheirOwnInstructions : Prop :=
  ∀ (i : Instr) (s t : State), exec i s = .next t →
    ((∀ nnn, i ≠ .call nnn) → i ≠ .ret → t.stack = s.stack) ∧
    (i ≠ .cls → (∀ x y n, i ≠ .drw x y n) → t.disp = s.disp)

/-- The random byte reaches RND alone: any other instruction does the same whatever it is (rules R26b, R156). -/
def Obligations.RandomByteReachesRndAlone : Prop :=
  ∀ (i : Instr) (s t : State) (r : Byte), (∀ x nn, i ≠ .rnd x nn) → exec i s = .next t →
    exec i { s with rnd := r } = .next { t with rnd := r }

/-- The keys reach SKP, SKNP and LD_VX_K alone, and KPREV reaches LD_VX_K alone (rules R22, R155). -/
def Obligations.KeysReachTheKeyInstructionsAlone : Prop :=
  ∀ (i : Instr) (s t : State) (k : Word), (∀ x, i ≠ .ldVxK x) → exec i s = .next t →
    exec i { s with kprev := k } = .next { t with kprev := k } ∧
    ((∀ x, i ≠ .skp x) → (∀ x, i ≠ .sknp x) → exec i { s with keys := k } = .next { t with keys := k })

/-! ## Memory and stack (10_state.md, 20_memory.md) -/

/-- The checked byte read and write (rules R44, R45): above 0xFFF both raise AddressOutOfRange with the address; else the
read gives MEM[a], and the write changes MEM[a] alone. -/
def Obligations.CheckedReadAndWrite : Prop :=
  ∀ (s : State) (a : Nat) (v : Byte),
    (0xFFF < a → s.memRead a = .error (.addressOutOfRange a) ∧ s.memWrite a v = .error (.addressOutOfRange a)) ∧
    (a ≤ 0xFFF → s.memRead a = .ok (s.byte a) ∧ ∃ t, s.memWrite a v = .ok t ∧ t.byte a = v ∧ s.WritesOnly t [a])

/-- Registers are bytes of memory: a store to the byte of a register changes the register, to one byte of I or PC that half
alone, and a write of the register changes the byte (rules R17, R19, R49; the addresses are decision D1, log entry 5, the
byte order decision D2, log entry 6). -/
def Obligations.RegistersAreBytesOfMemory : Prop :=
  ∀ (s : State) (v : Byte) (w : Word),
    (∀ x : Reg, s.byte x.toNat = s.v x ∧ (s.setByte x.toNat v).v x = v ∧ (s.setV x v).byte x.toNat = v) ∧
    (s.regI.toNat = 256 * (s.byte 0x010).toNat + (s.byte 0x011).toNat ∧
      ((s.setByte 0x010 v).regI).toNat = 256 * v.toNat + s.regI.toNat % 256 ∧
      ((s.setByte 0x011 v).regI).toNat = 256 * (s.regI.toNat / 256) + v.toNat ∧
      (s.setRegI w).regI = w ∧ ((s.setRegI w).byte 0x010).toNat = w.toNat / 256 ∧
      ((s.setRegI w).byte 0x011).toNat = w.toNat % 256) ∧
    (s.pc.toNat = 256 * (s.byte 0x012).toNat + (s.byte 0x013).toNat ∧
      ((s.setByte 0x012 v).pc).toNat = 256 * v.toNat + s.pc.toNat % 256 ∧
      ((s.setByte 0x013 v).pc).toNat = 256 * (s.pc.toNat / 256) + v.toNat ∧
      (s.setPc w).pc = w ∧ ((s.setPc w).byte 0x012).toNat = w.toNat / 256 ∧
      ((s.setPc w).byte 0x013).toNat = w.toNat % 256) ∧
    (s.byte 0x014 = s.dt ∧ (s.setByte 0x014 v).dt = v ∧ (s.setDt v).dt = v ∧ (s.setDt v).byte 0x014 = v) ∧
    (s.byte 0x015 = s.st ∧ (s.setByte 0x015 v).st = v ∧ (s.setSt v).st = v ∧ (s.setSt v).byte 0x015 = v)

/-- A store is seen by the next fetch with no fence or delay, the instruction after the storing one and the register window
included (rules R55, R184, derived there). The store here leaves PC's own bytes alone. -/
def Obligations.StoreIsSeenByTheNextFetch : Prop :=
  ∀ (s : State) (a : Nat) (v : Byte), a ∉ pcBytes →
    (s.setByte a v).fetch.toNat =
      256 * (if s.pc.toNat = a then v else s.byte s.pc.toNat).toNat +
        (if s.pc.toNat + 1 = a then v else s.byte (s.pc.toNat + 1)).toNat

/-- The contract of the call stack (rule R20): push appends or fails on 16 entries, pop takes the newest entry off or fails
on none, peek answers what pop would take and changes nothing; a push then a pop gives back value and stack. That the
stack is storage of its own is decision D4. -/
def Obligations.StackContract : Prop :=
  ∀ (s : State) (a : Word),
    (s.sp = 16 → s.push a = .error .stackOverflow) ∧
    (s.sp ≠ 16 → ∃ t, s.push a = .ok t ∧ t = { s with stack := t.stack } ∧ t.sp = s.sp + 1 ∧ t.peek = .ok a ∧
      t.pop = .ok (a, s)) ∧
    (s.sp = 0 → s.pop = .error .stackUnderflow ∧ s.peek = .error .stackUnderflow) ∧
    (s.sp ≠ 0 → ∃ b t, s.peek = .ok b ∧ s.pop = .ok (b, t) ∧ t = { s with stack := t.stack } ∧ t.sp + 1 = s.sp ∧
      s.stack = t.stack ++ [b])

/-- S5: a call, then a return from a state with the stack the call left, restores PC to the instruction after the call
and the stack to what it was (rules R85, R87; the pushed value is decision D5). -/
def Obligations.ReturnGoesBackBehindTheCall : Prop :=
  ∀ (s t u : State) (nnn : Addr12), s.sp < 16 → exec (.call nnn) s = .next t → u.stack = t.stack →
    ∃ r, exec .ret u = .next r ∧ r.pc = s.pc + 2 ∧ r.stack = s.stack

/-! ## Control transfer (40_flow.md) -/

/-- RET (rules R85, R132): the newest entry goes to PC and comes off the stack; on an empty stack it faults with
StackUnderflow and changes nothing else. -/
def Obligations.RetPopsOrUnderflows : Prop :=
  ∀ s : State,
    (∀ l a, s.stack = l ++ [a] →
      ∃ t, exec .ret s = .next t ∧ t.pc = a ∧ State.WritesOnly { s with stack := l } t pcBytes) ∧
    (s.sp = 0 → ∃ t, exec .ret s = .next t ∧ s.FaultEntry t .ret .stackUnderflow 0)

/-- JP (rule R86): PC <- zext_16(NNN), and PC alone is written. -/
def Obligations.JpSetsPc : Prop :=
  ∀ (s : State) (nnn : Addr12), ∃ t, exec (.jp nnn) s = .next t ∧ t.pc.toNat = nnn.toNat ∧ s.WritesOnly t pcBytes

/-- CALL with room on the stack (rule R87): the address of the next instruction is pushed (decision D5), PC <- NNN. -/
def Obligations.CallPushesAndJumps : Prop :=
  ∀ (s : State) (nnn : Addr12), s.sp ≠ 16 →
    ∃ t, exec (.call nnn) s = .next t ∧ t.pc.toNat = nnn.toNat ∧ t.stack = s.stack ++ [s.pc + 2] ∧
      State.WritesOnly { s with stack := s.stack ++ [s.pc + 2] } t pcBytes

/-- CALL on a full stack (rule R131): fault entry with StackOverflow; stack, SP and PC unchanged. -/
def Obligations.CallOnAFullStackOverflows : Prop :=
  ∀ (s : State) (nnn : Addr12), s.sp = 16 →
    ∃ t, exec (.call nnn) s = .next t ∧ s.FaultEntry t (.call nnn) .stackOverflow 0 ∧
      t.stack = s.stack ∧ t.sp = 16 ∧ t.pc = s.pc

/-- JP_V0 (rule R88; decision D10): PC <- NNN + V0 when that is an address; else AddressOutOfRange with the target. -/
def Obligations.JpV0JumpsOrFaults : Prop :=
  ∀ (s : State) (nnn : Addr12),
    (nnn.toNat + (s.v 0).toNat ≤ 0xFFF →
      ∃ t, exec (.jpV0 nnn) s = .next t ∧ t.pc.toNat = nnn.toNat + (s.v 0).toNat ∧ s.WritesOnly t pcBytes) ∧
    (0xFFF < nnn.toNat + (s.v 0).toNat →
      ∃ t, exec (.jpV0 nnn) s = .next t ∧
        s.FaultEntry t (.jpV0 nnn) .addressOutOfRange (nnn.toNat + (s.v 0).toNat))

/-- SE_I, SNE_I, SE_R, SNE_R (rules R89 to R92): PC + 4 when the condition holds, else PC + 2; PC alone is written. -/
def Obligations.RegisterSkips : Prop :=
  ∀ (s : State) (x y : Reg) (nn : Byte),
    (∃ t, exec (.seI x nn) s = .next t ∧ t.pc = (if s.v x = nn then s.pc + 4 else s.pc + 2) ∧ s.WritesOnly t pcBytes) ∧
    (∃ t, exec (.sneI x nn) s = .next t ∧ t.pc = (if s.v x ≠ nn then s.pc + 4 else s.pc + 2) ∧ s.WritesOnly t pcBytes) ∧
    (∃ t, exec (.seR x y) s = .next t ∧ t.pc = (if s.v x = s.v y then s.pc + 4 else s.pc + 2) ∧ s.WritesOnly t pcBytes) ∧
    (∃ t, exec (.sneR x y) s = .next t ∧ t.pc = (if s.v x ≠ s.v y then s.pc + 4 else s.pc + 2) ∧ s.WritesOnly t pcBytes)

/-! ## Arithmetic and logic (41_alu.md) -/

/-- LD_I, ADD_I, LD_R (rules R95, R96, R97): VX alone is written, and PC + 2; no flag. -/
def Obligations.LoadsAndAddImmediate : Prop :=
  ∀ (s : State) (x y : Reg) (nn : Byte),
    (∃ t, exec (.ldI x nn) s = .next t ∧ t.v x = nn ∧ t.pc = s.pc + 2 ∧ s.WritesOnly t (vAddr x :: pcBytes)) ∧
    (∃ t, exec (.addI x nn) s = .next t ∧ (t.v x).toNat = ((s.v x).toNat + nn.toNat) % 256 ∧ t.pc = s.pc + 2 ∧
      s.WritesOnly t (vAddr x :: pcBytes)) ∧
    (∃ t, exec (.ldR x y) s = .next t ∧ t.v x = s.v y ∧ t.pc = s.pc + 2 ∧ s.WritesOnly t (vAddr x :: pcBytes))

/-- OR, AND, XOR (rules R98, R99, R100): bit by bit; VX alone is written. That VF is not is decision D12. -/
def Obligations.LogicOperations : Prop :=
  ∀ (s : State) (x y : Reg),
    (∃ t, exec (.orR x y) s = .next t ∧ (∀ i, (t.v x).getLsbD i = ((s.v x).getLsbD i || (s.v y).getLsbD i)) ∧
      t.pc = s.pc + 2 ∧ s.WritesOnly t (vAddr x :: pcBytes)) ∧
    (∃ t, exec (.andR x y) s = .next t ∧ (∀ i, (t.v x).getLsbD i = ((s.v x).getLsbD i && (s.v y).getLsbD i)) ∧
      t.pc = s.pc + 2 ∧ s.WritesOnly t (vAddr x :: pcBytes)) ∧
    (∃ t, exec (.xorR x y) s = .next t ∧ (∀ i, (t.v x).getLsbD i = ((s.v x).getLsbD i ^^ (s.v y).getLsbD i)) ∧
      t.pc = s.pc + 2 ∧ s.WritesOnly t (vAddr x :: pcBytes))

/-- ADD_R (rule R101): the sum modulo 256 in VX unless X = F, and the carry in VF, written last. -/
def Obligations.AddWithCarryOut : Prop :=
  ∀ (s : State) (x y : Reg),
    ∃ t, exec (.addR x y) s = .next t ∧ (x ≠ vf → (t.v x).toNat = ((s.v x).toNat + (s.v y).toNat) % 256) ∧
      t.v vf = (if (s.v x).toNat + (s.v y).toNat > 255 then 1 else 0) ∧ t.pc = s.pc + 2 ∧
      s.WritesOnly t (vAddr x :: vAddr vf :: pcBytes)

/-- SUB and SUBN (rules R102, R104, R107): the difference modulo 256 in VX unless X = F, and in VF, written last, 1 when
no borrow occurred. The polarity is decision D7 (log entry 12). -/
def Obligations.SubtractsWithNoBorrowFlag : Prop :=
  ∀ (s : State) (x y : Reg),
    (∃ t, exec (.sub x y) s = .next t ∧
      (x ≠ vf → ((t.v x).toNat : Int) = ((s.v x).toNat - (s.v y).toNat : Int) % 256) ∧
      t.v vf = (if (s.v x).toNat ≥ (s.v y).toNat then 1 else 0) ∧ t.pc = s.pc + 2 ∧
      s.WritesOnly t (vAddr x :: vAddr vf :: pcBytes)) ∧
    (∃ t, exec (.subn x y) s = .next t ∧
      (x ≠ vf → ((t.v x).toNat : Int) = ((s.v y).toNat - (s.v x).toNat : Int) % 256) ∧
      t.v vf = (if (s.v y).toNat ≥ (s.v x).toNat then 1 else 0) ∧ t.pc = s.pc + 2 ∧
      s.WritesOnly t (vAddr x :: vAddr vf :: pcBytes))

/-- SHR and SHL (rules R103, R105): VX shifted by one in place, whatever Y is, and the bit shifted out in VF, written
last. The convention is decision D6 (log entry 13). -/
def Obligations.ShiftsInPlace : Prop :=
  ∀ (s : State) (x y : Reg),
    (∃ t, exec (.shr x y) s = .next t ∧ (x ≠ vf → (t.v x).toNat = (s.v x).toNat / 2) ∧
      (t.v vf).toNat = (s.v x).toNat % 2 ∧ t.pc = s.pc + 2 ∧ s.WritesOnly t (vAddr x :: vAddr vf :: pcBytes)) ∧
    (∃ t, exec (.shl x y) s = .next t ∧ (x ≠ vf → (t.v x).toNat = (s.v x).toNat * 2 % 256) ∧
      (t.v vf).toNat = (s.v x).toNat / 128 ∧ t.pc = s.pc + 2 ∧ s.WritesOnly t (vAddr x :: vAddr vf :: pcBytes))

/-- RND (rule R106): VX is the Step's random byte under the mask NN. -/
def Obligations.RndMasksTheRandomByte : Prop :=
  ∀ (s : State) (x : Reg) (nn : Byte),
    ∃ t, exec (.rnd x nn) s = .next t ∧ t.v x = s.rnd &&& nn ∧ t.pc = s.pc + 2 ∧ s.WritesOnly t (vAddr x :: pcBytes)

/-- VF is exactly 0 or 1 after every instruction that defines it as a flag, with X = F as well (rules R12, R107, S2). -/
def Obligations.FlagIsZeroOrOne : Prop :=
  ∀ (i : Instr) (s t : State) (x y : Reg) (n : Count),
    i ∈ [.addR x y, .sub x y, .shr x y, .subn x y, .shl x y, .drw x y n] → exec i s = .next t → ¬ faultsIn i s →
    t.v vf = 0 ∨ t.v vf = 1

/-! ## Index register and memory (42_index_memory.md) -/

/-- LD_IDX (rule R110): I <- zext_16(NNN). -/
def Obligations.LdIdxSetsI : Prop :=
  ∀ (s : State) (nnn : Addr12),
    ∃ t, exec (.ldIdx nnn) s = .next t ∧ t.regI.toNat = nnn.toNat ∧ t.pc = s.pc + 2 ∧ s.WritesOnly t (iBytes ++ pcBytes)

/-- ADD_IDX and LD_F (rules R111, R112): I + VX modulo 65536 with no flag (decision D14), and the glyph address of the low
four bits of VX (decisions D3, D19). -/
def Obligations.AddIdxAndLdFSetI : Prop :=
  ∀ (s : State) (x : Reg),
    (∃ t, exec (.addIdx x) s = .next t ∧ t.regI.toNat = (s.regI.toNat + (s.v x).toNat) % 65536 ∧ t.pc = s.pc + 2 ∧
      s.WritesOnly t (iBytes ++ pcBytes)) ∧
    (∃ t, exec (.ldF x) s = .next t ∧ t.regI.toNat = 0x050 + 5 * ((s.v x).toNat % 16) ∧ t.pc = s.pc + 2 ∧
      s.WritesOnly t (iBytes ++ pcBytes))

/-- LD_B (rule R113): the three decimal digits of the old VX at I, I+1, I+2, every other byte as before; PC + 2 on PC as
the stores leave it (decision D11), which is PC + 2 when none of the three is a byte of PC. -/
def Obligations.BcdStoresThreeDigits : Prop :=
  ∀ (s : State) (x : Reg), s.regI.toNat + 2 ≤ 0xFFF →
    ∃ u t, exec (.ldB x) s = .next t ∧
      s.WritesOnly u [s.regI.toNat, s.regI.toNat + 1, s.regI.toNat + 2] ∧
      (u.byte s.regI.toNat).toNat = (s.v x).toNat / 100 ∧
      (u.byte (s.regI.toNat + 1)).toNat = (s.v x).toNat / 10 % 10 ∧
      (u.byte (s.regI.toNat + 2)).toNat = (s.v x).toNat % 10 ∧
      t.pc = u.pc + 2 ∧ u.WritesOnly t pcBytes

/-- ST_REGS (rule R114): V0 to VX at I to I+X, one byte at a time in ascending order, V[i] read at its own moment. With a
range that overlaps the registers that order shows: the byte at I + i is the old V[i mod I] (decision D31), which is V[i]
for every I above 0x00F. PC + 2 on PC as the stores leave it (decision D11). -/
def Obligations.StoreRegistersAscending : Prop :=
  ∀ (s : State) (x : Reg), s.regI.toNat + x.toNat ≤ 0xFFF →
    ∃ u t, exec (.stRegs x) s = .next t ∧
      s.WritesOnly u ((List.range (x.toNat + 1)).map (s.regI.toNat + ·)) ∧
      (∀ i : Nat, i ≤ x.toNat → u.byte (s.regI.toNat + i) = s.v (BitVec.ofNat 4 (i % s.regI.toNat))) ∧
      t.pc = u.pc + 2 ∧ u.WritesOnly t pcBytes

/-- LD_REGS (rule R115): V0 to VX from I to I+X in ascending order, I unchanged (decision D13). Each register gets the byte
that stood at I + i before the instruction, with a range that overlaps the registers too. -/
def Obligations.LoadRegistersAscending : Prop :=
  ∀ (s : State) (x : Reg), s.regI.toNat + x.toNat ≤ 0xFFF →
    ∃ t, exec (.ldRegs x) s = .next t ∧
      (∀ i : Reg, i.toNat ≤ x.toNat → t.v i = s.byte (s.regI.toNat + i.toNat)) ∧
      t.pc = s.pc + 2 ∧ t.regI = s.regI ∧
      s.WritesOnly t ((List.range (x.toNat + 1)).map (vAddr 0 + ·) ++ pcBytes)

/-- A range that leaves memory faults before anything is read or written, with the first address outside (rules R46,
R133; decision D9): DRW with N > 0, LD_B, ST_REGS, LD_REGS. -/
def Obligations.RangeOutsideMemoryFaults : Prop :=
  ∀ (s : State) (x y : Reg) (n : Count),
    (0 < n.toNat → 0xFFF < s.regI.toNat + n.toNat - 1 →
      ∃ t, exec (.drw x y n) s = .next t ∧ s.FaultEntry t (.drw x y n) .addressOutOfRange (max s.regI.toNat 0x1000)) ∧
    (0xFFF < s.regI.toNat + 2 →
      ∃ t, exec (.ldB x) s = .next t ∧ s.FaultEntry t (.ldB x) .addressOutOfRange (max s.regI.toNat 0x1000)) ∧
    (0xFFF < s.regI.toNat + x.toNat →
      (∃ t, exec (.stRegs x) s = .next t ∧
        s.FaultEntry t (.stRegs x) .addressOutOfRange (max s.regI.toNat 0x1000)) ∧
      (∃ t, exec (.ldRegs x) s = .next t ∧
        s.FaultEntry t (.ldRegs x) .addressOutOfRange (max s.regI.toNat 0x1000)))

/-! ## Display (43_display.md) -/

/-- CLS (rule R118): every pixel 0, VF not written; `display_changed` raised (decision D29, log entry 3). -/
def Obligations.ClsClearsTheDisplay : Prop :=
  ∀ s : State, ∃ t, exec .cls s = .next t ∧ (∀ px py, t.pixel px py = false) ∧ t.pc = s.pc + 2 ∧
    t.out.displayChanged = true ∧
    State.WritesOnly { s with disp := t.disp, out := { s.out with displayChanged := true } } t pcBytes

/-- DRW (rule R119): each pixel under a 1 bit of the sprite is toggled and no other; VF is 1 if one of them was 1, else 0;
memory changes in VF and PC alone. Start modulo the screen, clipping and the bit order are decisions D15, D16, N = 0 is
decision D17 (log entry 14). -/
def Obligations.DrwTogglesTheSprite : Prop :=
  ∀ (s : State) (x y : Reg) (n : Count), n.toNat = 0 ∨ s.regI.toNat + n.toNat - 1 ≤ 0xFFF →
    ∃ t, exec (.drw x y n) s = .next t ∧
      (∀ px py, t.pixel px py = (s.pixel px py ^^ s.spriteBit x y n px py)) ∧
      (t.v vf = 0 ∨ t.v vf = 1) ∧
      (t.v vf = 1 ↔ ∃ px py, s.spriteBit x y n px py = true ∧ s.pixel px py = true) ∧
      t.pc = s.pc + 2 ∧ t.out.displayChanged = true ∧
      State.WritesOnly { s with disp := t.disp, out := { s.out with displayChanged := true } } t (vAddr vf :: pcBytes)

/-- S6: drawing a sprite again at the same place restores the buffer, and then every pixel drawn the first time onto a 0
collides (rules R119, R121). The coordinates are in registers other than VF and the sprite stands above the register
window, so that neither draw changes them. -/
def Obligations.DrawingTwiceRestoresTheDisplay : Prop :=
  ∀ (s t : State) (x y : Reg) (n : Count), x ≠ vf → y ≠ vf → 0x016 ≤ s.regI.toNat →
    n.toNat = 0 ∨ s.regI.toNat + n.toNat - 1 ≤ 0xFFF → exec (.drw x y n) s = .next t →
    ∃ u, exec (.drw x y n) t = .next u ∧ u.disp = s.disp ∧
      ((∃ px py, s.spriteBit x y n px py = true ∧ s.pixel px py = false) → u.v vf = 1)

/-! ## Keypad and timers (44_keypad_timers.md) -/

/-- SKP and SKNP (rules R124, R125): skip on the level of the key the low four bits of VX name (decision D18). -/
def Obligations.KeySkips : Prop :=
  ∀ (s : State) (x : Reg),
    (∃ t, exec (.skp x) s = .next t ∧
      t.pc = (if s.keys.getLsbD ((s.v x).toNat % 16) = true then s.pc + 4 else s.pc + 2) ∧ s.WritesOnly t pcBytes) ∧
    (∃ t, exec (.sknp x) s = .next t ∧
      t.pc = (if s.keys.getLsbD ((s.v x).toNat % 16) = false then s.pc + 4 else s.pc + 2) ∧ s.WritesOnly t pcBytes)

/-- LD_VX_K (rule R126; decision D20): when no key is down now that was up at the previous Step, PC is held, `waiting` is
raised and nothing else changes; else VX gets the lowest such key and PC + 2. -/
def Obligations.KeyWaitHoldsOrStoresTheLowestNewKey : Prop :=
  ∀ (s : State) (x : Reg),
    ((∀ k, k < 16 → s.keys.getLsbD k = true → s.kprev.getLsbD k = true) →
      ∃ t, exec (.ldVxK x) s = .next t ∧ t = { s with out := { s.out with waiting := true } } ∧ t.pc = s.pc) ∧
    (∀ k, k < 16 → s.keys.getLsbD k = true → s.kprev.getLsbD k = false →
      (∀ j, j < k → s.keys.getLsbD j = true → s.kprev.getLsbD j = true) →
      ∃ t, exec (.ldVxK x) s = .next t ∧ (t.v x).toNat = k ∧ t.pc = s.pc + 2 ∧ s.WritesOnly t (vAddr x :: pcBytes))

/-- A Step that executes LD_VX_K while no key goes down ends with KPREV <- keys and `waiting` raised and changes nothing else,
so the next Step fetches it again, and a Tick between the two counts as ever (rules R126, R153; decision D20). -/
def Obligations.KeyWaitStepChangesKprevAlone : Prop :=
  ∀ (s : State) (x : Reg) (keys : Word) (rnd : Byte),
    s.nextEvent = .step keys rnd → s.run = .running → s.pc.toNat ≤ 0xFFE → decode s.fetch = .instr (.ldVxK x) →
    keys &&& ~~~s.kprev = 0 →
    ∃ t, step s = .next t ∧
      t = { s.takeEvent with kprev := keys, keys := keys, rnd := rnd, out := ⟨false, none, true⟩ } ∧ t.pc = s.pc ∧
      ∃ u, deliver .tick t = .next u ∧ u.dt.toNat = s.dt.toNat - 1 ∧ u.st.toNat = s.st.toNat - 1 ∧ u.run = .running ∧
        t.WritesOnly u [dtAddr, stAddr]

/-- LD_VX_DT, LD_DT_VX, LD_ST_VX (rules R127, R128, R129): VX <- DT, DT <- VX, ST <- VX, and PC + 2; nothing else. -/
def Obligations.TimerReadsAndWrites : Prop :=
  ∀ (s : State) (x : Reg),
    (∃ t, exec (.ldVxDt x) s = .next t ∧ t.v x = s.dt ∧ t.dt = s.dt ∧ t.pc = s.pc + 2 ∧
      s.WritesOnly t (vAddr x :: pcBytes)) ∧
    (∃ t, exec (.ldDtVx x) s = .next t ∧ t.dt = s.v x ∧ t.pc = s.pc + 2 ∧ s.WritesOnly t (dtAddr :: pcBytes)) ∧
    (∃ t, exec (.ldStVx x) s = .next t ∧ t.st = s.v x ∧ t.soundActive = decide (s.v x ≠ 0) ∧ t.pc = s.pc + 2 ∧
      s.WritesOnly t (stAddr :: pcBytes))
end

