-- ==== Sys2Proof/Laws/Decode.lean ====
section
/-! SUPPORT. The fields of an encoded word (rules R61, R62): each field reads back what the format placed there. -/

namespace Sys2Proof

@[simp] theorem opClass_formatNNN (c : BitVec 4) (nnn : Addr12) : opClass (formatNNN c nnn) = c :=
  BitVec.extractLsb'_append_eq_left

@[simp] theorem fieldNNN_formatNNN (c : BitVec 4) (nnn : Addr12) : fieldNNN (formatNNN c nnn) = nnn :=
  BitVec.extractLsb'_append_eq_right

@[simp] theorem opClass_formatXNN (c : BitVec 4) (x : Reg) (nn : Byte) : opClass (formatXNN c x nn) = c :=
  (BitVec.extractLsb'_append_eq_of_le (by decide)).trans BitVec.extractLsb'_append_eq_left

@[simp] theorem fieldX_formatXNN (c : BitVec 4) (x : Reg) (nn : Byte) : fieldX (formatXNN c x nn) = x :=
  (BitVec.extractLsb'_append_eq_of_le (by decide)).trans BitVec.extractLsb'_append_eq_right

@[simp] theorem fieldNN_formatXNN (c : BitVec 4) (x : Reg) (nn : Byte) : fieldNN (formatXNN c x nn) = nn :=
  BitVec.extractLsb'_append_eq_right

@[simp] theorem opClass_formatXYN (c : BitVec 4) (x y : Reg) (n : Count) : opClass (formatXYN c x y n) = c :=
  (BitVec.extractLsb'_append_eq_of_le (by decide)).trans
    ((BitVec.extractLsb'_append_eq_of_le (by decide)).trans BitVec.extractLsb'_append_eq_left)

@[simp] theorem fieldX_formatXYN (c : BitVec 4) (x y : Reg) (n : Count) : fieldX (formatXYN c x y n) = x :=
  (BitVec.extractLsb'_append_eq_of_le (by decide)).trans
    ((BitVec.extractLsb'_append_eq_of_le (by decide)).trans BitVec.extractLsb'_append_eq_right)

@[simp] theorem fieldY_formatXYN (c : BitVec 4) (x y : Reg) (n : Count) : fieldY (formatXYN c x y n) = y :=
  (BitVec.extractLsb'_append_eq_of_le (by decide)).trans BitVec.extractLsb'_append_eq_right

@[simp] theorem fieldN_formatXYN (c : BitVec 4) (x y : Reg) (n : Count) : fieldN (formatXYN c x y n) = n :=
  BitVec.extractLsb'_append_eq_right

/-- A word is its class and its field NNN. -/
theorem formatNNN_fields (w : Word) : formatNNN (opClass w) (fieldNNN w) = w :=
  (BitVec.extractLsb'_append_extractLsb'_eq_extractLsb' rfl).trans BitVec.extractLsb'_eq_self

/-- A word is its class, its field X and its field NN. -/
theorem formatXNN_fields (w : Word) : formatXNN (opClass w) (fieldX w) (fieldNN w) = w := by
  unfold formatXNN opClass fieldX fieldNN
  rw [BitVec.extractLsb'_append_extractLsb'_eq_extractLsb' (show 12 = 8 + 4 from rfl)]
  exact (BitVec.extractLsb'_append_extractLsb'_eq_extractLsb' rfl).trans BitVec.extractLsb'_eq_self

/-- A word is its class and its fields X, Y and N. -/
theorem formatXYN_fields (w : Word) : formatXYN (opClass w) (fieldX w) (fieldY w) (fieldN w) = w := by
  unfold formatXYN opClass fieldX fieldY fieldN
  rw [BitVec.extractLsb'_append_extractLsb'_eq_extractLsb' (show 12 = 8 + 4 from rfl),
    BitVec.extractLsb'_append_extractLsb'_eq_extractLsb' (show 8 = 4 + 4 from rfl)]
  exact (BitVec.extractLsb'_append_extractLsb'_eq_extractLsb' rfl).trans BitVec.extractLsb'_eq_self

end Sys2Proof
end

