-- ==== Sys2Proof/Laws/Memory.lean ====
section
/-! SUPPORT. The laws of memory: a read after a write, and the canonical form, which every memory operation keeps. The
read laws hold for every list, canonical or not. -/

namespace Sys2Proof.Machine

theorem Memory.read_cons (p : Nat × Byte) (m : Memory) (a : Nat) :
    Memory.read (p :: m) a = if p.1 = a then p.2 else Memory.read m a := rfl

theorem Memory.read_erase (m : Memory) (a b : Nat) :
    (m.erase a).read b = if b = a then 0 else m.read b := by
  induction m with
  | nil => simp [Memory.erase, Memory.read]
  | cons p m ih =>
    obtain ⟨k, v⟩ := p
    simp only [Memory.erase] at ih
    by_cases hk : k = a
    · subst hk
      simp only [Memory.erase, List.filter_cons, bne_self_eq_false, Bool.false_eq_true, if_false, ih, Memory.read_cons]
      by_cases hb : b = k
      · simp [hb]
      · simp [hb, Ne.symm hb]
    · simp only [Memory.erase, List.filter_cons, bne_iff_ne, ne_eq, hk, not_false_eq_true, if_true, Memory.read_cons, ih]
      by_cases hb : b = a
      · subst hb; simp [hk]
      · simp [hb]

theorem Memory.read_insert (m : Memory) (a b : Nat) (v : Byte) (hm : ∀ p ∈ m, p.1 ≠ a) :
    (Memory.insert a v m).read b = if b = a then v else m.read b := by
  induction m with
  | nil =>
    by_cases hb : b = a
    · simp [Memory.insert, Memory.read, hb]
    · simp [Memory.insert, Memory.read, hb, Ne.symm hb]
  | cons p m ih =>
    obtain ⟨k, w⟩ := p
    have hk : k ≠ a := hm (k, w) (by simp)
    have ih := ih (fun p hp => hm p (by simp [hp]))
    unfold Memory.insert
    split
    · simp only [Memory.read_cons]
      by_cases hb : b = a
      · simp [hb]
      · simp [hb, Ne.symm hb]
    · simp only [Memory.read_cons, ih]
      by_cases hb : b = a
      · subst hb; simp [hk]
      · simp [hb]

theorem Memory.not_mem_erase (m : Memory) (a : Nat) : ∀ p ∈ m.erase a, p.1 ≠ a := by
  intro p hp
  simpa using (List.mem_filter.mp hp).2

/-- A read after a write: the value written at its address, and every other byte as before (rules R44, R45). -/
@[simp] theorem Memory.read_write (m : Memory) (a b : Nat) (v : Byte) :
    (m.write a v).read b = if b = a then v else m.read b := by
  unfold Memory.write
  split
  · next h => rw [Memory.read_erase, h]
  · rw [Memory.read_insert _ _ _ _ (Memory.not_mem_erase m a), Memory.read_erase]
    split <;> simp_all

theorem Memory.erase_wf {m : Memory} (h : m.wf) (a : Nat) : (m.erase a).wf :=
  ⟨h.1.filter _, fun p hp => h.2 p (List.mem_of_mem_filter hp)⟩

theorem Memory.mem_insert {a : Nat} {v : Byte} {m : Memory} {p : Nat × Byte} (h : p ∈ Memory.insert a v m) :
    p = (a, v) ∨ p ∈ m := by
  induction m with
  | nil => simpa [Memory.insert] using h
  | cons q m ih =>
    unfold Memory.insert at h
    split at h
    · simpa using h
    · rcases List.mem_cons.mp h with h | h
      · exact Or.inr (by simp [h])
      · rcases ih h with h | h
        · exact Or.inl h
        · exact Or.inr (by simp [h])

theorem Memory.insert_sorted {m : Memory} (h : m.Pairwise (fun p q => p.1 < q.1)) (a : Nat) (v : Byte)
    (ha : ∀ p ∈ m, p.1 ≠ a) : (Memory.insert a v m).Pairwise (fun p q => p.1 < q.1) := by
  induction m with
  | nil => simp [Memory.insert]
  | cons q m ih =>
    obtain ⟨k, w⟩ := q
    have hq := List.pairwise_cons.mp h
    unfold Memory.insert
    split
    · next hlt =>
      refine List.pairwise_cons.mpr ⟨fun p hp => ?_, h⟩
      rcases List.mem_cons.mp hp with rfl | hp
      · exact hlt
      · exact Nat.lt_trans hlt (hq.1 p hp)
    · next hlt =>
      refine List.pairwise_cons.mpr ⟨fun p hp => ?_, ih hq.2 (fun p hp => ha p (by simp [hp]))⟩
      rcases Memory.mem_insert hp with rfl | hp
      · have := ha (k, w) (by simp)
        simp only at this hlt ⊢
        omega
      · exact hq.1 p hp

/-- A write to an address of memory keeps the canonical form. -/
theorem Memory.write_wf {m : Memory} (h : m.wf) {a : Nat} (ha : a < Config.memSize) (v : Byte) : (m.write a v).wf := by
  unfold Memory.write
  split
  · exact Memory.erase_wf h a
  · next hv =>
    have he := Memory.erase_wf h a
    refine ⟨Memory.insert_sorted he.1 a v (Memory.not_mem_erase m a), fun p hp => ?_⟩
    rcases Memory.mem_insert hp with rfl | hp
    · exact ⟨ha, hv⟩
    · exact he.2 p hp

theorem Memory.writeAll_wf {m : Memory} (h : m.wf) (bs : List Byte) {a : Nat} (ha : a + bs.length ≤ Config.memSize) :
    (m.writeAll a bs).wf := by
  induction bs generalizing m a with
  | nil => exact h
  | cons b bs ih =>
    simp only [List.length_cons] at ha
    exact ih (Memory.write_wf h (by omega) b) (by omega)

/-- What a block write leaves: the bytes of the list in the range it covers, every other byte as before (rule R173). -/
theorem Memory.read_writeAll (m : Memory) (bs : List Byte) (a b : Nat) :
    (m.writeAll a bs).read b = if a ≤ b ∧ b < a + bs.length then bs[b - a]?.getD 0 else m.read b := by
  induction bs generalizing m a with
  | nil => simp only [Memory.writeAll, List.length_nil]; rw [if_neg (by omega)]
  | cons c bs ih =>
    simp only [Memory.writeAll, ih, Memory.read_write, List.length_cons]
    by_cases hb : b = a
    · subst hb; simp
    · by_cases h1 : a + 1 ≤ b ∧ b < a + 1 + bs.length
      · rw [if_pos h1, if_pos (by omega)]
        obtain ⟨d, hd⟩ : ∃ d, b - a = d + 1 := ⟨b - a - 1, by omega⟩
        rw [hd, show b - (a + 1) = d by omega]; simp
      · rw [if_neg h1, if_neg hb, if_neg (by omega)]

/-- A byte of canonical memory that reads other than 0x00 lies below 4096. -/
theorem Memory.read_eq_zero_of_le {m : Memory} (h : m.wf) {a : Nat} (ha : Config.memSize ≤ a) : m.read a = 0 := by
  have h2 := h.2
  clear h
  induction m with
  | nil => rfl
  | cons p m ih =>
    have hp := (h2 p (by simp)).1
    simp only [Memory.read_cons]
    rw [if_neg (by omega)]
    exact ih (fun q hq => h2 q (by simp [hq]))

/-- Canonical memories that read alike are equal data. -/
theorem Memory.ext_of_wf {m n : Memory} (hm : m.wf) (hn : n.wf) (h : ∀ a, m.read a = n.read a) : m = n := by
  induction m generalizing n with
  | nil =>
    cases n with
    | nil => rfl
    | cons q n =>
      have := h q.1
      simp only [Memory.read_cons, if_true] at this
      exact absurd this.symm (hn.2 q (by simp)).2
  | cons p m ih =>
    have below : ∀ {l : Memory} {a : Nat}, (∀ q ∈ l, a < q.1) → Memory.read l a = 0 := by
      intro l a hl
      induction l with
      | nil => rfl
      | cons q l ihl =>
        have := hl q (by simp)
        simp only [Memory.read_cons]
        rw [if_neg (by omega)]
        exact ihl (fun r hr => hl r (by simp [hr]))
    cases n with
    | nil =>
      have := h p.1
      simp only [Memory.read_cons, if_true] at this
      exact absurd this (hm.2 p (by simp)).2
    | cons q n =>
      obtain ⟨k, v⟩ := p
      obtain ⟨l, w⟩ := q
      have hm1 := List.pairwise_cons.mp hm.1
      have hn1 := List.pairwise_cons.mp hn.1
      have hv : v ≠ 0 := (hm.2 (k, v) (by simp)).2
      have hw : w ≠ 0 := (hn.2 (l, w) (by simp)).2
      have hkl : k = l := by
        rcases Nat.lt_trichotomy k l with hlt | heq | hlt
        · have := h k
          simp only [Memory.read_cons, if_true] at this
          rw [if_neg (by omega), below (fun r hr => Nat.lt_trans hlt (hn1.1 r hr))] at this
          exact absurd this hv
        · exact heq
        · have := h l
          simp only [Memory.read_cons, if_true] at this
          rw [if_neg (by omega), below (fun r hr => Nat.lt_trans hlt (hm1.1 r hr))] at this
          exact absurd this.symm hw
      subst hkl
      have hvw : v = w := by simpa [Memory.read_cons] using h k
      subst hvw
      congr 1
      refine ih ⟨hm1.2, fun r hr => hm.2 r (by simp [hr])⟩ ⟨hn1.2, fun r hr => hn.2 r (by simp [hr])⟩ (fun a => ?_)
      by_cases ha : k = a
      · subst ha
        rw [below hm1.1, below hn1.1]
      · simpa [Memory.read_cons, ha] using h a

end Sys2Proof.Machine
end

