-- ==== Sys2Proof/Laws/State.lean ====
section
/-! SUPPORT. The small lemmas of State: for each update of the state, what every field is afterwards, true by rfl; and the
registers as names for bytes of memory, what each register write leaves in each register and byte (rules R17, R19, R49). -/

namespace Sys2Proof.Machine

/-! ## Fields after each update -/

@[simp] theorem State.setByte_stack (s : State) (a : Nat) (v : Byte) : (s.setByte a v).stack = s.stack := rfl
@[simp] theorem State.setByte_disp (s : State) (a : Nat) (v : Byte) : (s.setByte a v).disp = s.disp := rfl
@[simp] theorem State.setByte_kprev (s : State) (a : Nat) (v : Byte) : (s.setByte a v).kprev = s.kprev := rfl
@[simp] theorem State.setByte_run (s : State) (a : Nat) (v : Byte) : (s.setByte a v).run = s.run := rfl
@[simp] theorem State.setByte_cause (s : State) (a : Nat) (v : Byte) : (s.setByte a v).cause = s.cause := rfl
@[simp] theorem State.setByte_faultPc (s : State) (a : Nat) (v : Byte) : (s.setByte a v).faultPc = s.faultPc := rfl
@[simp] theorem State.setByte_faultOpcode (s : State) (a : Nat) (v : Byte) : (s.setByte a v).faultOpcode = s.faultOpcode := rfl
@[simp] theorem State.setByte_faultAddr (s : State) (a : Nat) (v : Byte) : (s.setByte a v).faultAddr = s.faultAddr := rfl
@[simp] theorem State.setByte_haltReason (s : State) (a : Nat) (v : Byte) : (s.setByte a v).haltReason = s.haltReason := rfl
@[simp] theorem State.setByte_keys (s : State) (a : Nat) (v : Byte) : (s.setByte a v).keys = s.keys := rfl
@[simp] theorem State.setByte_rnd (s : State) (a : Nat) (v : Byte) : (s.setByte a v).rnd = s.rnd := rfl
@[simp] theorem State.setByte_out (s : State) (a : Nat) (v : Byte) : (s.setByte a v).out = s.out := rfl
@[simp] theorem State.setByte_inbox (s : State) (a : Nat) (v : Byte) : (s.setByte a v).inbox = s.inbox := rfl
@[simp] theorem State.setByte_eventNo (s : State) (a : Nat) (v : Byte) : (s.setByte a v).eventNo = s.eventNo := rfl

@[simp] theorem State.setV_stack (s : State) (x : Reg) (v : Byte) : (s.setV x v).stack = s.stack := rfl
@[simp] theorem State.setV_disp (s : State) (x : Reg) (v : Byte) : (s.setV x v).disp = s.disp := rfl
@[simp] theorem State.setV_kprev (s : State) (x : Reg) (v : Byte) : (s.setV x v).kprev = s.kprev := rfl
@[simp] theorem State.setV_run (s : State) (x : Reg) (v : Byte) : (s.setV x v).run = s.run := rfl
@[simp] theorem State.setV_cause (s : State) (x : Reg) (v : Byte) : (s.setV x v).cause = s.cause := rfl
@[simp] theorem State.setV_faultPc (s : State) (x : Reg) (v : Byte) : (s.setV x v).faultPc = s.faultPc := rfl
@[simp] theorem State.setV_faultOpcode (s : State) (x : Reg) (v : Byte) : (s.setV x v).faultOpcode = s.faultOpcode := rfl
@[simp] theorem State.setV_faultAddr (s : State) (x : Reg) (v : Byte) : (s.setV x v).faultAddr = s.faultAddr := rfl
@[simp] theorem State.setV_haltReason (s : State) (x : Reg) (v : Byte) : (s.setV x v).haltReason = s.haltReason := rfl
@[simp] theorem State.setV_keys (s : State) (x : Reg) (v : Byte) : (s.setV x v).keys = s.keys := rfl
@[simp] theorem State.setV_rnd (s : State) (x : Reg) (v : Byte) : (s.setV x v).rnd = s.rnd := rfl
@[simp] theorem State.setV_out (s : State) (x : Reg) (v : Byte) : (s.setV x v).out = s.out := rfl
@[simp] theorem State.setV_inbox (s : State) (x : Reg) (v : Byte) : (s.setV x v).inbox = s.inbox := rfl
@[simp] theorem State.setV_eventNo (s : State) (x : Reg) (v : Byte) : (s.setV x v).eventNo = s.eventNo := rfl

@[simp] theorem State.setWord_stack (s : State) (a : Nat) (w : Word) : (s.setWord a w).stack = s.stack := rfl
@[simp] theorem State.setWord_disp (s : State) (a : Nat) (w : Word) : (s.setWord a w).disp = s.disp := rfl
@[simp] theorem State.setWord_kprev (s : State) (a : Nat) (w : Word) : (s.setWord a w).kprev = s.kprev := rfl
@[simp] theorem State.setWord_run (s : State) (a : Nat) (w : Word) : (s.setWord a w).run = s.run := rfl
@[simp] theorem State.setWord_cause (s : State) (a : Nat) (w : Word) : (s.setWord a w).cause = s.cause := rfl
@[simp] theorem State.setWord_faultPc (s : State) (a : Nat) (w : Word) : (s.setWord a w).faultPc = s.faultPc := rfl
@[simp] theorem State.setWord_faultOpcode (s : State) (a : Nat) (w : Word) : (s.setWord a w).faultOpcode = s.faultOpcode := rfl
@[simp] theorem State.setWord_faultAddr (s : State) (a : Nat) (w : Word) : (s.setWord a w).faultAddr = s.faultAddr := rfl
@[simp] theorem State.setWord_haltReason (s : State) (a : Nat) (w : Word) : (s.setWord a w).haltReason = s.haltReason := rfl
@[simp] theorem State.setWord_keys (s : State) (a : Nat) (w : Word) : (s.setWord a w).keys = s.keys := rfl
@[simp] theorem State.setWord_rnd (s : State) (a : Nat) (w : Word) : (s.setWord a w).rnd = s.rnd := rfl
@[simp] theorem State.setWord_out (s : State) (a : Nat) (w : Word) : (s.setWord a w).out = s.out := rfl
@[simp] theorem State.setWord_inbox (s : State) (a : Nat) (w : Word) : (s.setWord a w).inbox = s.inbox := rfl
@[simp] theorem State.setWord_eventNo (s : State) (a : Nat) (w : Word) : (s.setWord a w).eventNo = s.eventNo := rfl

@[simp] theorem State.setRegI_stack (s : State) (w : Word) : (s.setRegI w).stack = s.stack := rfl
@[simp] theorem State.setRegI_disp (s : State) (w : Word) : (s.setRegI w).disp = s.disp := rfl
@[simp] theorem State.setRegI_kprev (s : State) (w : Word) : (s.setRegI w).kprev = s.kprev := rfl
@[simp] theorem State.setRegI_run (s : State) (w : Word) : (s.setRegI w).run = s.run := rfl
@[simp] theorem State.setRegI_cause (s : State) (w : Word) : (s.setRegI w).cause = s.cause := rfl
@[simp] theorem State.setRegI_faultPc (s : State) (w : Word) : (s.setRegI w).faultPc = s.faultPc := rfl
@[simp] theorem State.setRegI_faultOpcode (s : State) (w : Word) : (s.setRegI w).faultOpcode = s.faultOpcode := rfl
@[simp] theorem State.setRegI_faultAddr (s : State) (w : Word) : (s.setRegI w).faultAddr = s.faultAddr := rfl
@[simp] theorem State.setRegI_haltReason (s : State) (w : Word) : (s.setRegI w).haltReason = s.haltReason := rfl
@[simp] theorem State.setRegI_keys (s : State) (w : Word) : (s.setRegI w).keys = s.keys := rfl
@[simp] theorem State.setRegI_rnd (s : State) (w : Word) : (s.setRegI w).rnd = s.rnd := rfl
@[simp] theorem State.setRegI_out (s : State) (w : Word) : (s.setRegI w).out = s.out := rfl
@[simp] theorem State.setRegI_inbox (s : State) (w : Word) : (s.setRegI w).inbox = s.inbox := rfl
@[simp] theorem State.setRegI_eventNo (s : State) (w : Word) : (s.setRegI w).eventNo = s.eventNo := rfl

@[simp] theorem State.setPc_stack (s : State) (w : Word) : (s.setPc w).stack = s.stack := rfl
@[simp] theorem State.setPc_disp (s : State) (w : Word) : (s.setPc w).disp = s.disp := rfl
@[simp] theorem State.setPc_kprev (s : State) (w : Word) : (s.setPc w).kprev = s.kprev := rfl
@[simp] theorem State.setPc_run (s : State) (w : Word) : (s.setPc w).run = s.run := rfl
@[simp] theorem State.setPc_cause (s : State) (w : Word) : (s.setPc w).cause = s.cause := rfl
@[simp] theorem State.setPc_faultPc (s : State) (w : Word) : (s.setPc w).faultPc = s.faultPc := rfl
@[simp] theorem State.setPc_faultOpcode (s : State) (w : Word) : (s.setPc w).faultOpcode = s.faultOpcode := rfl
@[simp] theorem State.setPc_faultAddr (s : State) (w : Word) : (s.setPc w).faultAddr = s.faultAddr := rfl
@[simp] theorem State.setPc_haltReason (s : State) (w : Word) : (s.setPc w).haltReason = s.haltReason := rfl
@[simp] theorem State.setPc_keys (s : State) (w : Word) : (s.setPc w).keys = s.keys := rfl
@[simp] theorem State.setPc_rnd (s : State) (w : Word) : (s.setPc w).rnd = s.rnd := rfl
@[simp] theorem State.setPc_out (s : State) (w : Word) : (s.setPc w).out = s.out := rfl
@[simp] theorem State.setPc_inbox (s : State) (w : Word) : (s.setPc w).inbox = s.inbox := rfl
@[simp] theorem State.setPc_eventNo (s : State) (w : Word) : (s.setPc w).eventNo = s.eventNo := rfl

@[simp] theorem State.setDt_stack (s : State) (v : Byte) : (s.setDt v).stack = s.stack := rfl
@[simp] theorem State.setDt_disp (s : State) (v : Byte) : (s.setDt v).disp = s.disp := rfl
@[simp] theorem State.setDt_kprev (s : State) (v : Byte) : (s.setDt v).kprev = s.kprev := rfl
@[simp] theorem State.setDt_run (s : State) (v : Byte) : (s.setDt v).run = s.run := rfl
@[simp] theorem State.setDt_cause (s : State) (v : Byte) : (s.setDt v).cause = s.cause := rfl
@[simp] theorem State.setDt_faultPc (s : State) (v : Byte) : (s.setDt v).faultPc = s.faultPc := rfl
@[simp] theorem State.setDt_faultOpcode (s : State) (v : Byte) : (s.setDt v).faultOpcode = s.faultOpcode := rfl
@[simp] theorem State.setDt_faultAddr (s : State) (v : Byte) : (s.setDt v).faultAddr = s.faultAddr := rfl
@[simp] theorem State.setDt_haltReason (s : State) (v : Byte) : (s.setDt v).haltReason = s.haltReason := rfl
@[simp] theorem State.setDt_keys (s : State) (v : Byte) : (s.setDt v).keys = s.keys := rfl
@[simp] theorem State.setDt_rnd (s : State) (v : Byte) : (s.setDt v).rnd = s.rnd := rfl
@[simp] theorem State.setDt_out (s : State) (v : Byte) : (s.setDt v).out = s.out := rfl
@[simp] theorem State.setDt_inbox (s : State) (v : Byte) : (s.setDt v).inbox = s.inbox := rfl
@[simp] theorem State.setDt_eventNo (s : State) (v : Byte) : (s.setDt v).eventNo = s.eventNo := rfl

@[simp] theorem State.setSt_stack (s : State) (v : Byte) : (s.setSt v).stack = s.stack := rfl
@[simp] theorem State.setSt_disp (s : State) (v : Byte) : (s.setSt v).disp = s.disp := rfl
@[simp] theorem State.setSt_kprev (s : State) (v : Byte) : (s.setSt v).kprev = s.kprev := rfl
@[simp] theorem State.setSt_run (s : State) (v : Byte) : (s.setSt v).run = s.run := rfl
@[simp] theorem State.setSt_cause (s : State) (v : Byte) : (s.setSt v).cause = s.cause := rfl
@[simp] theorem State.setSt_faultPc (s : State) (v : Byte) : (s.setSt v).faultPc = s.faultPc := rfl
@[simp] theorem State.setSt_faultOpcode (s : State) (v : Byte) : (s.setSt v).faultOpcode = s.faultOpcode := rfl
@[simp] theorem State.setSt_faultAddr (s : State) (v : Byte) : (s.setSt v).faultAddr = s.faultAddr := rfl
@[simp] theorem State.setSt_haltReason (s : State) (v : Byte) : (s.setSt v).haltReason = s.haltReason := rfl
@[simp] theorem State.setSt_keys (s : State) (v : Byte) : (s.setSt v).keys = s.keys := rfl
@[simp] theorem State.setSt_rnd (s : State) (v : Byte) : (s.setSt v).rnd = s.rnd := rfl
@[simp] theorem State.setSt_out (s : State) (v : Byte) : (s.setSt v).out = s.out := rfl
@[simp] theorem State.setSt_inbox (s : State) (v : Byte) : (s.setSt v).inbox = s.inbox := rfl
@[simp] theorem State.setSt_eventNo (s : State) (v : Byte) : (s.setSt v).eventNo = s.eventNo := rfl

@[simp] theorem State.advance_stack (s : State) : (s.advance).stack = s.stack := rfl
@[simp] theorem State.advance_disp (s : State) : (s.advance).disp = s.disp := rfl
@[simp] theorem State.advance_kprev (s : State) : (s.advance).kprev = s.kprev := rfl
@[simp] theorem State.advance_run (s : State) : (s.advance).run = s.run := rfl
@[simp] theorem State.advance_cause (s : State) : (s.advance).cause = s.cause := rfl
@[simp] theorem State.advance_faultPc (s : State) : (s.advance).faultPc = s.faultPc := rfl
@[simp] theorem State.advance_faultOpcode (s : State) : (s.advance).faultOpcode = s.faultOpcode := rfl
@[simp] theorem State.advance_faultAddr (s : State) : (s.advance).faultAddr = s.faultAddr := rfl
@[simp] theorem State.advance_haltReason (s : State) : (s.advance).haltReason = s.haltReason := rfl
@[simp] theorem State.advance_keys (s : State) : (s.advance).keys = s.keys := rfl
@[simp] theorem State.advance_rnd (s : State) : (s.advance).rnd = s.rnd := rfl
@[simp] theorem State.advance_out (s : State) : (s.advance).out = s.out := rfl
@[simp] theorem State.advance_inbox (s : State) : (s.advance).inbox = s.inbox := rfl
@[simp] theorem State.advance_eventNo (s : State) : (s.advance).eventNo = s.eventNo := rfl

@[simp] theorem State.setResultFlag_stack (s : State) (x : Reg) (r f : Byte) : (s.setResultFlag x r f).stack = s.stack := rfl
@[simp] theorem State.setResultFlag_disp (s : State) (x : Reg) (r f : Byte) : (s.setResultFlag x r f).disp = s.disp := rfl
@[simp] theorem State.setResultFlag_kprev (s : State) (x : Reg) (r f : Byte) : (s.setResultFlag x r f).kprev = s.kprev := rfl
@[simp] theorem State.setResultFlag_run (s : State) (x : Reg) (r f : Byte) : (s.setResultFlag x r f).run = s.run := rfl
@[simp] theorem State.setResultFlag_cause (s : State) (x : Reg) (r f : Byte) : (s.setResultFlag x r f).cause = s.cause := rfl
@[simp] theorem State.setResultFlag_faultPc (s : State) (x : Reg) (r f : Byte) : (s.setResultFlag x r f).faultPc = s.faultPc := rfl
@[simp] theorem State.setResultFlag_faultOpcode (s : State) (x : Reg) (r f : Byte) : (s.setResultFlag x r f).faultOpcode = s.faultOpcode := rfl
@[simp] theorem State.setResultFlag_faultAddr (s : State) (x : Reg) (r f : Byte) : (s.setResultFlag x r f).faultAddr = s.faultAddr := rfl
@[simp] theorem State.setResultFlag_haltReason (s : State) (x : Reg) (r f : Byte) : (s.setResultFlag x r f).haltReason = s.haltReason := rfl
@[simp] theorem State.setResultFlag_keys (s : State) (x : Reg) (r f : Byte) : (s.setResultFlag x r f).keys = s.keys := rfl
@[simp] theorem State.setResultFlag_rnd (s : State) (x : Reg) (r f : Byte) : (s.setResultFlag x r f).rnd = s.rnd := rfl
@[simp] theorem State.setResultFlag_out (s : State) (x : Reg) (r f : Byte) : (s.setResultFlag x r f).out = s.out := rfl
@[simp] theorem State.setResultFlag_inbox (s : State) (x : Reg) (r f : Byte) : (s.setResultFlag x r f).inbox = s.inbox := rfl
@[simp] theorem State.setResultFlag_eventNo (s : State) (x : Reg) (r f : Byte) : (s.setResultFlag x r f).eventNo = s.eventNo := rfl

@[simp] theorem State.takeFault_mem (s : State) (op : Word) (r : Raise) : (s.takeFault op r).mem = s.mem := rfl
@[simp] theorem State.takeFault_stack (s : State) (op : Word) (r : Raise) : (s.takeFault op r).stack = s.stack := rfl
@[simp] theorem State.takeFault_disp (s : State) (op : Word) (r : Raise) : (s.takeFault op r).disp = s.disp := rfl
@[simp] theorem State.takeFault_kprev (s : State) (op : Word) (r : Raise) : (s.takeFault op r).kprev = s.kprev := rfl
@[simp] theorem State.takeFault_run (s : State) (op : Word) (r : Raise) : (s.takeFault op r).run = .faulted := rfl
@[simp] theorem State.takeFault_cause (s : State) (op : Word) (r : Raise) : (s.takeFault op r).cause = r.cause := rfl
@[simp] theorem State.takeFault_faultPc (s : State) (op : Word) (r : Raise) : (s.takeFault op r).faultPc = s.pc := rfl
@[simp] theorem State.takeFault_faultOpcode (s : State) (op : Word) (r : Raise) : (s.takeFault op r).faultOpcode = op := rfl
@[simp] theorem State.takeFault_faultAddr (s : State) (op : Word) (r : Raise) : (s.takeFault op r).faultAddr = r.faultAddr := rfl
@[simp] theorem State.takeFault_haltReason (s : State) (op : Word) (r : Raise) : (s.takeFault op r).haltReason = s.haltReason := rfl
@[simp] theorem State.takeFault_keys (s : State) (op : Word) (r : Raise) : (s.takeFault op r).keys = s.keys := rfl
@[simp] theorem State.takeFault_rnd (s : State) (op : Word) (r : Raise) : (s.takeFault op r).rnd = s.rnd := rfl
@[simp] theorem State.takeFault_out (s : State) (op : Word) (r : Raise) : (s.takeFault op r).out = s.out := rfl
@[simp] theorem State.takeFault_inbox (s : State) (op : Word) (r : Raise) : (s.takeFault op r).inbox = s.inbox := rfl
@[simp] theorem State.takeFault_eventNo (s : State) (op : Word) (r : Raise) : (s.takeFault op r).eventNo = s.eventNo := rfl

@[simp] theorem State.markDisplay_mem (s : State) : (s.markDisplay).mem = s.mem := rfl
@[simp] theorem State.markDisplay_stack (s : State) : (s.markDisplay).stack = s.stack := rfl
@[simp] theorem State.markDisplay_disp (s : State) : (s.markDisplay).disp = s.disp := rfl
@[simp] theorem State.markDisplay_kprev (s : State) : (s.markDisplay).kprev = s.kprev := rfl
@[simp] theorem State.markDisplay_run (s : State) : (s.markDisplay).run = s.run := rfl
@[simp] theorem State.markDisplay_cause (s : State) : (s.markDisplay).cause = s.cause := rfl
@[simp] theorem State.markDisplay_faultPc (s : State) : (s.markDisplay).faultPc = s.faultPc := rfl
@[simp] theorem State.markDisplay_faultOpcode (s : State) : (s.markDisplay).faultOpcode = s.faultOpcode := rfl
@[simp] theorem State.markDisplay_faultAddr (s : State) : (s.markDisplay).faultAddr = s.faultAddr := rfl
@[simp] theorem State.markDisplay_haltReason (s : State) : (s.markDisplay).haltReason = s.haltReason := rfl
@[simp] theorem State.markDisplay_keys (s : State) : (s.markDisplay).keys = s.keys := rfl
@[simp] theorem State.markDisplay_rnd (s : State) : (s.markDisplay).rnd = s.rnd := rfl
@[simp] theorem State.markDisplay_out (s : State) : (s.markDisplay).out = { s.out with displayChanged := true } := rfl
@[simp] theorem State.markDisplay_inbox (s : State) : (s.markDisplay).inbox = s.inbox := rfl
@[simp] theorem State.markDisplay_eventNo (s : State) : (s.markDisplay).eventNo = s.eventNo := rfl

@[simp] theorem State.markWaiting_mem (s : State) : (s.markWaiting).mem = s.mem := rfl
@[simp] theorem State.markWaiting_stack (s : State) : (s.markWaiting).stack = s.stack := rfl
@[simp] theorem State.markWaiting_disp (s : State) : (s.markWaiting).disp = s.disp := rfl
@[simp] theorem State.markWaiting_kprev (s : State) : (s.markWaiting).kprev = s.kprev := rfl
@[simp] theorem State.markWaiting_run (s : State) : (s.markWaiting).run = s.run := rfl
@[simp] theorem State.markWaiting_cause (s : State) : (s.markWaiting).cause = s.cause := rfl
@[simp] theorem State.markWaiting_faultPc (s : State) : (s.markWaiting).faultPc = s.faultPc := rfl
@[simp] theorem State.markWaiting_faultOpcode (s : State) : (s.markWaiting).faultOpcode = s.faultOpcode := rfl
@[simp] theorem State.markWaiting_faultAddr (s : State) : (s.markWaiting).faultAddr = s.faultAddr := rfl
@[simp] theorem State.markWaiting_haltReason (s : State) : (s.markWaiting).haltReason = s.haltReason := rfl
@[simp] theorem State.markWaiting_keys (s : State) : (s.markWaiting).keys = s.keys := rfl
@[simp] theorem State.markWaiting_rnd (s : State) : (s.markWaiting).rnd = s.rnd := rfl
@[simp] theorem State.markWaiting_out (s : State) : (s.markWaiting).out = { s.out with waiting := true } := rfl
@[simp] theorem State.markWaiting_inbox (s : State) : (s.markWaiting).inbox = s.inbox := rfl
@[simp] theorem State.markWaiting_eventNo (s : State) : (s.markWaiting).eventNo = s.eventNo := rfl

@[simp] theorem State.reportUnknown_mem (s : State) (op : Word) : (s.reportUnknown op).mem = s.mem := rfl
@[simp] theorem State.reportUnknown_stack (s : State) (op : Word) : (s.reportUnknown op).stack = s.stack := rfl
@[simp] theorem State.reportUnknown_disp (s : State) (op : Word) : (s.reportUnknown op).disp = s.disp := rfl
@[simp] theorem State.reportUnknown_kprev (s : State) (op : Word) : (s.reportUnknown op).kprev = s.kprev := rfl
@[simp] theorem State.reportUnknown_run (s : State) (op : Word) : (s.reportUnknown op).run = s.run := rfl
@[simp] theorem State.reportUnknown_cause (s : State) (op : Word) : (s.reportUnknown op).cause = s.cause := rfl
@[simp] theorem State.reportUnknown_faultPc (s : State) (op : Word) : (s.reportUnknown op).faultPc = s.faultPc := rfl
@[simp] theorem State.reportUnknown_faultOpcode (s : State) (op : Word) : (s.reportUnknown op).faultOpcode = s.faultOpcode := rfl
@[simp] theorem State.reportUnknown_faultAddr (s : State) (op : Word) : (s.reportUnknown op).faultAddr = s.faultAddr := rfl
@[simp] theorem State.reportUnknown_haltReason (s : State) (op : Word) : (s.reportUnknown op).haltReason = s.haltReason := rfl
@[simp] theorem State.reportUnknown_keys (s : State) (op : Word) : (s.reportUnknown op).keys = s.keys := rfl
@[simp] theorem State.reportUnknown_rnd (s : State) (op : Word) : (s.reportUnknown op).rnd = s.rnd := rfl
@[simp] theorem State.reportUnknown_out (s : State) (op : Word) : (s.reportUnknown op).out = { s.out with unknown := some (op, s.pc) } := rfl
@[simp] theorem State.reportUnknown_inbox (s : State) (op : Word) : (s.reportUnknown op).inbox = s.inbox := rfl
@[simp] theorem State.reportUnknown_eventNo (s : State) (op : Word) : (s.reportUnknown op).eventNo = s.eventNo := rfl

@[simp] theorem State.sample_mem (s : State) (k : Word) (r : Byte) : (s.sample k r).mem = s.mem := rfl
@[simp] theorem State.sample_stack (s : State) (k : Word) (r : Byte) : (s.sample k r).stack = s.stack := rfl
@[simp] theorem State.sample_disp (s : State) (k : Word) (r : Byte) : (s.sample k r).disp = s.disp := rfl
@[simp] theorem State.sample_kprev (s : State) (k : Word) (r : Byte) : (s.sample k r).kprev = s.kprev := rfl
@[simp] theorem State.sample_run (s : State) (k : Word) (r : Byte) : (s.sample k r).run = s.run := rfl
@[simp] theorem State.sample_cause (s : State) (k : Word) (r : Byte) : (s.sample k r).cause = s.cause := rfl
@[simp] theorem State.sample_faultPc (s : State) (k : Word) (r : Byte) : (s.sample k r).faultPc = s.faultPc := rfl
@[simp] theorem State.sample_faultOpcode (s : State) (k : Word) (r : Byte) : (s.sample k r).faultOpcode = s.faultOpcode := rfl
@[simp] theorem State.sample_faultAddr (s : State) (k : Word) (r : Byte) : (s.sample k r).faultAddr = s.faultAddr := rfl
@[simp] theorem State.sample_haltReason (s : State) (k : Word) (r : Byte) : (s.sample k r).haltReason = s.haltReason := rfl
@[simp] theorem State.sample_keys (s : State) (k : Word) (r : Byte) : (s.sample k r).keys = k := rfl
@[simp] theorem State.sample_rnd (s : State) (k : Word) (r : Byte) : (s.sample k r).rnd = r := rfl
@[simp] theorem State.sample_out (s : State) (k : Word) (r : Byte) : (s.sample k r).out = s.out := rfl
@[simp] theorem State.sample_inbox (s : State) (k : Word) (r : Byte) : (s.sample k r).inbox = s.inbox := rfl
@[simp] theorem State.sample_eventNo (s : State) (k : Word) (r : Byte) : (s.sample k r).eventNo = s.eventNo := rfl

@[simp] theorem State.takeEvent_mem (s : State) : (s.takeEvent).mem = s.mem := rfl
@[simp] theorem State.takeEvent_stack (s : State) : (s.takeEvent).stack = s.stack := rfl
@[simp] theorem State.takeEvent_disp (s : State) : (s.takeEvent).disp = s.disp := rfl
@[simp] theorem State.takeEvent_kprev (s : State) : (s.takeEvent).kprev = s.kprev := rfl
@[simp] theorem State.takeEvent_run (s : State) : (s.takeEvent).run = s.run := rfl
@[simp] theorem State.takeEvent_cause (s : State) : (s.takeEvent).cause = s.cause := rfl
@[simp] theorem State.takeEvent_faultPc (s : State) : (s.takeEvent).faultPc = s.faultPc := rfl
@[simp] theorem State.takeEvent_faultOpcode (s : State) : (s.takeEvent).faultOpcode = s.faultOpcode := rfl
@[simp] theorem State.takeEvent_faultAddr (s : State) : (s.takeEvent).faultAddr = s.faultAddr := rfl
@[simp] theorem State.takeEvent_haltReason (s : State) : (s.takeEvent).haltReason = s.haltReason := rfl
@[simp] theorem State.takeEvent_keys (s : State) : (s.takeEvent).keys = s.keys := rfl
@[simp] theorem State.takeEvent_rnd (s : State) : (s.takeEvent).rnd = s.rnd := rfl
@[simp] theorem State.takeEvent_out (s : State) : (s.takeEvent).out = StepOutput.none := rfl
@[simp] theorem State.takeEvent_inbox (s : State) : (s.takeEvent).inbox = s.inbox.tail := rfl
@[simp] theorem State.takeEvent_eventNo (s : State) : (s.takeEvent).eventNo = s.eventNo + 1 := rfl

/-! `skipIf` and `endStep` choose; they leave these fields alone either way. -/

@[simp] theorem State.skipIf_stack (s : State) (c : Bool) : (s.skipIf c).stack = s.stack := by cases c <;> rfl
@[simp] theorem State.skipIf_disp (s : State) (c : Bool) : (s.skipIf c).disp = s.disp := by cases c <;> rfl
@[simp] theorem State.skipIf_kprev (s : State) (c : Bool) : (s.skipIf c).kprev = s.kprev := by cases c <;> rfl
@[simp] theorem State.skipIf_run (s : State) (c : Bool) : (s.skipIf c).run = s.run := by cases c <;> rfl
@[simp] theorem State.skipIf_cause (s : State) (c : Bool) : (s.skipIf c).cause = s.cause := by cases c <;> rfl
@[simp] theorem State.skipIf_faultPc (s : State) (c : Bool) : (s.skipIf c).faultPc = s.faultPc := by cases c <;> rfl
@[simp] theorem State.skipIf_faultOpcode (s : State) (c : Bool) : (s.skipIf c).faultOpcode = s.faultOpcode := by cases c <;> rfl
@[simp] theorem State.skipIf_faultAddr (s : State) (c : Bool) : (s.skipIf c).faultAddr = s.faultAddr := by cases c <;> rfl
@[simp] theorem State.skipIf_haltReason (s : State) (c : Bool) : (s.skipIf c).haltReason = s.haltReason := by cases c <;> rfl
@[simp] theorem State.skipIf_keys (s : State) (c : Bool) : (s.skipIf c).keys = s.keys := by cases c <;> rfl
@[simp] theorem State.skipIf_rnd (s : State) (c : Bool) : (s.skipIf c).rnd = s.rnd := by cases c <;> rfl
@[simp] theorem State.skipIf_out (s : State) (c : Bool) : (s.skipIf c).out = s.out := by cases c <;> rfl
@[simp] theorem State.skipIf_inbox (s : State) (c : Bool) : (s.skipIf c).inbox = s.inbox := by cases c <;> rfl
@[simp] theorem State.skipIf_eventNo (s : State) (c : Bool) : (s.skipIf c).eventNo = s.eventNo := by cases c <;> rfl

@[simp] theorem State.endStep_mem (s : State) : s.endStep.mem = s.mem := by unfold State.endStep; split <;> rfl
@[simp] theorem State.endStep_stack (s : State) : s.endStep.stack = s.stack := by unfold State.endStep; split <;> rfl
@[simp] theorem State.endStep_disp (s : State) : s.endStep.disp = s.disp := by unfold State.endStep; split <;> rfl
theorem State.endStep_kprev (s : State) :
    s.endStep.kprev = if s.run = .faulted then s.kprev else s.keys := by unfold State.endStep; split <;> rfl
@[simp] theorem State.endStep_run (s : State) : s.endStep.run = s.run := by unfold State.endStep; split <;> rfl
@[simp] theorem State.endStep_cause (s : State) : s.endStep.cause = s.cause := by unfold State.endStep; split <;> rfl
@[simp] theorem State.endStep_faultPc (s : State) : s.endStep.faultPc = s.faultPc := by unfold State.endStep; split <;> rfl
@[simp] theorem State.endStep_faultOpcode (s : State) : s.endStep.faultOpcode = s.faultOpcode := by unfold State.endStep; split <;> rfl
@[simp] theorem State.endStep_faultAddr (s : State) : s.endStep.faultAddr = s.faultAddr := by unfold State.endStep; split <;> rfl
@[simp] theorem State.endStep_haltReason (s : State) : s.endStep.haltReason = s.haltReason := by unfold State.endStep; split <;> rfl
@[simp] theorem State.endStep_keys (s : State) : s.endStep.keys = s.keys := by unfold State.endStep; split <;> rfl
@[simp] theorem State.endStep_rnd (s : State) : s.endStep.rnd = s.rnd := by unfold State.endStep; split <;> rfl
@[simp] theorem State.endStep_out (s : State) : s.endStep.out = s.out := by unfold State.endStep; split <;> rfl
@[simp] theorem State.endStep_inbox (s : State) : s.endStep.inbox = s.inbox := by unfold State.endStep; split <;> rfl
@[simp] theorem State.endStep_eventNo (s : State) : s.endStep.eventNo = s.eventNo := by unfold State.endStep; split <;> rfl

/-! ## Words and their bytes (rule R49) -/

theorem Word.ofBytes_toNat (h l : Byte) : (Word.ofBytes h l).toNat = 256 * h.toNat + l.toNat := by
  have := l.isLt
  unfold Word.ofBytes
  show (h ++ l).toNat = _
  rw [BitVec.toNat_append, ← Nat.shiftLeft_add_eq_or_of_lt this, Nat.shiftLeft_eq]; omega

theorem Word.hi_toNat (w : Word) : (Word.hi w).toNat = w.toNat / 256 := by
  have := w.isLt
  simp [Word.hi, Nat.shiftRight_eq_div_pow]; omega

theorem Word.lo_toNat (w : Word) : (Word.lo w).toNat = w.toNat % 256 := by simp [Word.lo]

@[simp] theorem Word.ofBytes_hi_lo (w : Word) : Word.ofBytes (Word.hi w) (Word.lo w) = w :=
  (BitVec.extractLsb'_append_extractLsb'_eq_extractLsb' rfl).trans BitVec.extractLsb'_eq_self

@[simp] theorem Word.hi_ofBytes (h l : Byte) : Word.hi (Word.ofBytes h l) = h := BitVec.extractLsb'_append_eq_left

@[simp] theorem Word.lo_ofBytes (h l : Byte) : Word.lo (Word.ofBytes h l) = l := BitVec.extractLsb'_append_eq_right

/-! ## Addresses of the register window (rule R17) -/

theorem vAddr_lt (x : Reg) : vAddr x < iAddr := by
  have := x.isLt
  simp only [vAddr, vBase, iAddr]; omega

theorem vAddr_inj {x y : Reg} : vAddr x = vAddr y ↔ x = y := by
  simp only [vAddr, vBase, Nat.zero_add]
  exact ⟨BitVec.eq_of_toNat_eq, fun h => by rw [h]⟩

theorem vAddr_lt_memSize (x : Reg) : vAddr x < Config.memSize := Nat.lt_trans (vAddr_lt x) (by decide)

/-- No V register stands at or above the bytes of I. -/
theorem vAddr_ne (x : Reg) {a : Nat} (h : iAddr ≤ a) : vAddr x ≠ a := Nat.ne_of_lt (Nat.lt_of_lt_of_le (vAddr_lt x) h)

/-! ## Bytes of memory after each register write (rule R19) -/

@[simp] theorem State.setByte_byte (s : State) (a b : Nat) (v : Byte) :
    (s.setByte a v).byte b = if b = a then v else s.byte b := Memory.read_write s.mem a b v

theorem State.setV_byte (s : State) (x : Reg) (v : Byte) (b : Nat) :
    (s.setV x v).byte b = if b = vAddr x then v else s.byte b := State.setByte_byte s _ b v

theorem State.setWord_byte (s : State) (a : Nat) (w : Word) (b : Nat) :
    (s.setWord a w).byte b = if b = a + 1 then Word.lo w else if b = a then Word.hi w else s.byte b := by
  simp [State.setWord]

theorem State.setRegI_byte (s : State) (w : Word) (b : Nat) :
    (s.setRegI w).byte b = if b = iAddr + 1 then Word.lo w else if b = iAddr then Word.hi w else s.byte b :=
  State.setWord_byte s iAddr w b

theorem State.setPc_byte (s : State) (w : Word) (b : Nat) :
    (s.setPc w).byte b = if b = pcAddr + 1 then Word.lo w else if b = pcAddr then Word.hi w else s.byte b :=
  State.setWord_byte s pcAddr w b

theorem State.setDt_byte (s : State) (v : Byte) (b : Nat) :
    (s.setDt v).byte b = if b = dtAddr then v else s.byte b := State.setByte_byte s _ b v

theorem State.setSt_byte (s : State) (v : Byte) (b : Nat) :
    (s.setSt v).byte b = if b = stAddr then v else s.byte b := State.setByte_byte s _ b v

theorem State.advance_byte (s : State) {b : Nat} (h : b ∉ [pcAddr, pcAddr + 1]) : s.advance.byte b = s.byte b := by
  simp only [List.mem_cons, List.not_mem_nil, or_false, not_or] at h
  rw [State.advance, State.setPc_byte, if_neg h.2, if_neg h.1]

theorem State.skipIf_byte (s : State) (c : Bool) {b : Nat} (h : b ∉ [pcAddr, pcAddr + 1]) :
    (s.skipIf c).byte b = s.byte b := by
  cases c
  · exact State.advance_byte s h
  · simp only [List.mem_cons, List.not_mem_nil, or_false, not_or] at h
    rw [State.skipIf, if_pos rfl, State.setPc_byte, if_neg h.2, if_neg h.1]

/-! ## Each register after each register write -/

@[simp] theorem State.setV_v (s : State) (x : Reg) (v : Byte) (y : Reg) : (s.setV x v).v y = if y = x then v else s.v y := by
  rw [State.v, State.setV_byte]; simp only [vAddr_inj, State.v]
@[simp] theorem State.setV_regI (s : State) (x : Reg) (v : Byte) : (s.setV x v).regI = s.regI := by
  simp only [State.regI, State.word, State.setV_byte, (vAddr_ne x (a := iAddr) (by decide)).symm, (vAddr_ne x (a := iAddr + 1) (by decide)).symm, if_false]
@[simp] theorem State.setV_pc (s : State) (x : Reg) (v : Byte) : (s.setV x v).pc = s.pc := by
  simp only [State.pc, State.word, State.setV_byte, (vAddr_ne x (a := pcAddr) (by decide)).symm, (vAddr_ne x (a := pcAddr + 1) (by decide)).symm, if_false]
@[simp] theorem State.setV_dt (s : State) (x : Reg) (v : Byte) : (s.setV x v).dt = s.dt := by
  simp only [State.dt, State.setV_byte, (vAddr_ne x (a := dtAddr) (by decide)).symm, if_false]
@[simp] theorem State.setV_st (s : State) (x : Reg) (v : Byte) : (s.setV x v).st = s.st := by
  simp only [State.st, State.setV_byte, (vAddr_ne x (a := stAddr) (by decide)).symm, if_false]
@[simp] theorem State.setRegI_v (s : State) (w : Word) (y : Reg) : (s.setRegI w).v y = s.v y := by
  simp only [State.v, State.setRegI_byte, vAddr_ne y (a := iAddr) (by decide), vAddr_ne y (a := iAddr + 1) (by decide), if_false]
@[simp] theorem State.setRegI_regI (s : State) (w : Word) : (s.setRegI w).regI = w := by
  simp [State.regI, State.word, State.setRegI_byte]
@[simp] theorem State.setRegI_pc (s : State) (w : Word) : (s.setRegI w).pc = s.pc := by
  simp [State.pc, State.word, State.setRegI_byte, iAddr, pcAddr]
@[simp] theorem State.setRegI_dt (s : State) (w : Word) : (s.setRegI w).dt = s.dt := by
  simp [State.dt, State.setRegI_byte, dtAddr, iAddr]
@[simp] theorem State.setRegI_st (s : State) (w : Word) : (s.setRegI w).st = s.st := by
  simp [State.st, State.setRegI_byte, iAddr, stAddr]
@[simp] theorem State.setPc_v (s : State) (w : Word) (y : Reg) : (s.setPc w).v y = s.v y := by
  simp only [State.v, State.setPc_byte, vAddr_ne y (a := pcAddr) (by decide), vAddr_ne y (a := pcAddr + 1) (by decide), if_false]
@[simp] theorem State.setPc_regI (s : State) (w : Word) : (s.setPc w).regI = s.regI := by
  simp [State.regI, State.word, State.setPc_byte, iAddr, pcAddr]
@[simp] theorem State.setPc_pc (s : State) (w : Word) : (s.setPc w).pc = w := by
  simp [State.pc, State.word, State.setPc_byte]
@[simp] theorem State.setPc_dt (s : State) (w : Word) : (s.setPc w).dt = s.dt := by
  simp [State.dt, State.setPc_byte, dtAddr, pcAddr]
@[simp] theorem State.setPc_st (s : State) (w : Word) : (s.setPc w).st = s.st := by
  simp [State.st, State.setPc_byte, pcAddr, stAddr]
@[simp] theorem State.setDt_v (s : State) (v : Byte) (y : Reg) : (s.setDt v).v y = s.v y := by
  simp only [State.v, State.setDt_byte, vAddr_ne y (a := dtAddr) (by decide), if_false]
@[simp] theorem State.setDt_regI (s : State) (v : Byte) : (s.setDt v).regI = s.regI := by
  simp [State.regI, State.word, State.setDt_byte, dtAddr, iAddr]
@[simp] theorem State.setDt_pc (s : State) (v : Byte) : (s.setDt v).pc = s.pc := by
  simp [State.pc, State.word, State.setDt_byte, dtAddr, pcAddr]
@[simp] theorem State.setDt_dt (s : State) (v : Byte) : (s.setDt v).dt = v := by
  simp [State.dt, State.setDt_byte]
@[simp] theorem State.setDt_st (s : State) (v : Byte) : (s.setDt v).st = s.st := by
  simp [State.st, State.setDt_byte, dtAddr, stAddr]
@[simp] theorem State.setSt_v (s : State) (v : Byte) (y : Reg) : (s.setSt v).v y = s.v y := by
  simp only [State.v, State.setSt_byte, vAddr_ne y (a := stAddr) (by decide), if_false]
@[simp] theorem State.setSt_regI (s : State) (v : Byte) : (s.setSt v).regI = s.regI := by
  simp [State.regI, State.word, State.setSt_byte, iAddr, stAddr]
@[simp] theorem State.setSt_pc (s : State) (v : Byte) : (s.setSt v).pc = s.pc := by
  simp [State.pc, State.word, State.setSt_byte, pcAddr, stAddr]
@[simp] theorem State.setSt_dt (s : State) (v : Byte) : (s.setSt v).dt = s.dt := by
  simp [State.dt, State.setSt_byte, dtAddr, stAddr]
@[simp] theorem State.setSt_st (s : State) (v : Byte) : (s.setSt v).st = v := by
  simp [State.st, State.setSt_byte]

/-! ## The PC update (rule R78) -/

@[simp] theorem State.advance_pc (s : State) : s.advance.pc = s.pc + 2 := State.setPc_pc s _
@[simp] theorem State.advance_v (s : State) (y : Reg) : s.advance.v y = s.v y := State.setPc_v s _ y
@[simp] theorem State.advance_regI (s : State) : s.advance.regI = s.regI := State.setPc_regI s _
@[simp] theorem State.advance_dt (s : State) : s.advance.dt = s.dt := State.setPc_dt s _
@[simp] theorem State.advance_st (s : State) : s.advance.st = s.st := State.setPc_st s _

theorem State.skipIf_pc (s : State) (c : Bool) : (s.skipIf c).pc = if c then s.pc + 4 else s.pc + 2 := by
  cases c <;> simp [State.skipIf]

/-! ## Registers of a state whose memory an update leaves alone -/

theorem State.byte_congr {s t : State} (h : t.mem = s.mem) (a : Nat) : t.byte a = s.byte a := by
  rw [State.byte, State.byte, h]
theorem State.v_congr {s t : State} (h : t.mem = s.mem) (x : Reg) : t.v x = s.v x := State.byte_congr h _
theorem State.pc_congr {s t : State} (h : t.mem = s.mem) : t.pc = s.pc := by
  rw [State.pc, State.pc, State.word, State.word, State.byte_congr h, State.byte_congr h]
theorem State.regI_congr {s t : State} (h : t.mem = s.mem) : t.regI = s.regI := by
  rw [State.regI, State.regI, State.word, State.word, State.byte_congr h, State.byte_congr h]

@[simp] theorem State.takeFault_pc (s : State) (op : Word) (r : Raise) : (s.takeFault op r).pc = s.pc := State.pc_congr rfl
@[simp] theorem State.sample_pc (s : State) (k : Word) (r : Byte) : (s.sample k r).pc = s.pc := State.pc_congr rfl
@[simp] theorem State.takeEvent_pc (s : State) : s.takeEvent.pc = s.pc := State.pc_congr rfl
@[simp] theorem State.markDisplay_pc (s : State) : s.markDisplay.pc = s.pc := State.pc_congr rfl
@[simp] theorem State.markWaiting_pc (s : State) : s.markWaiting.pc = s.pc := State.pc_congr rfl
@[simp] theorem State.reportUnknown_pc (s : State) (op : Word) : (s.reportUnknown op).pc = s.pc := State.pc_congr rfl
@[simp] theorem State.endStep_pc (s : State) : s.endStep.pc = s.pc := State.pc_congr (State.endStep_mem s)

/-! ## Register writes keep the memory canonical (rule R10) -/

theorem State.setByte_wf {s : State} (h : s.mem.wf) {a : Nat} (ha : a < Config.memSize) (v : Byte) :
    (s.setByte a v).mem.wf := Memory.write_wf h ha v
theorem State.setV_wf {s : State} (h : s.mem.wf) (x : Reg) (v : Byte) : (s.setV x v).mem.wf :=
  State.setByte_wf h (vAddr_lt_memSize x) v
theorem State.setRegI_wf {s : State} (h : s.mem.wf) (w : Word) : (s.setRegI w).mem.wf :=
  State.setByte_wf (State.setByte_wf h (by decide) _) (by decide) _
theorem State.setPc_wf {s : State} (h : s.mem.wf) (w : Word) : (s.setPc w).mem.wf :=
  State.setByte_wf (State.setByte_wf h (by decide) _) (by decide) _
theorem State.setDt_wf {s : State} (h : s.mem.wf) (v : Byte) : (s.setDt v).mem.wf := State.setByte_wf h (by decide) v
theorem State.setSt_wf {s : State} (h : s.mem.wf) (v : Byte) : (s.setSt v).mem.wf := State.setByte_wf h (by decide) v
theorem State.advance_wf {s : State} (h : s.mem.wf) : s.advance.mem.wf := State.setPc_wf h _
theorem State.skipIf_wf {s : State} (h : s.mem.wf) (c : Bool) : (s.skipIf c).mem.wf := by
  cases c
  · exact State.advance_wf h
  · exact State.setPc_wf h _
theorem State.setResultFlag_wf {s : State} (h : s.mem.wf) (x : Reg) (r f : Byte) : (s.setResultFlag x r f).mem.wf :=
  State.setV_wf (State.setV_wf h x r) vf f

/-- Reset memory is canonical. -/
theorem State.reset_wf : State.reset.mem.wf := by decide

end Sys2Proof.Machine
end

