-- ==== Sys2Proof/Laws/Ops.lean ====
section
/-! SUPPORT. One lemma per shared operation: everything it can answer, for callers to cite instead of unfolding it. -/

namespace Sys2Proof.Machine

/-! ## Checked access (rules R44 to R46) -/

theorem State.memRead_ok (s : State) {a : Nat} (h : a ≤ lastAddr) : s.memRead a = .ok (s.byte a) := by
  rw [State.memRead, if_neg (by omega)]

theorem State.memRead_error (s : State) {a : Nat} (h : lastAddr < a) : s.memRead a = .error (.addressOutOfRange a) := by
  rw [State.memRead, if_pos h]

theorem State.memWrite_ok (s : State) {a : Nat} (h : a ≤ lastAddr) (v : Byte) : s.memWrite a v = .ok (s.setByte a v) := by
  rw [State.memWrite, if_neg (by omega)]

theorem State.memWrite_error (s : State) {a : Nat} (h : lastAddr < a) (v : Byte) :
    s.memWrite a v = .error (.addressOutOfRange a) := by
  rw [State.memWrite, if_pos h]

theorem rangeCheck_ok {a n : Nat} (h : n = 0 ∨ a + n ≤ Config.memSize) : rangeCheck a n = .ok () := by
  simp only [Config.memSize] at h
  rw [rangeCheck, if_neg (by simp only [lastAddr]; omega)]

theorem rangeCheck_error {a n : Nat} (h0 : 0 < n) (h : Config.memSize < a + n) :
    rangeCheck a n = .error (.addressOutOfRange (max a 0x1000)) := by
  simp only [Config.memSize] at h
  rw [rangeCheck, if_pos (by simp only [lastAddr]; omega)]

/-- Either the whole range is in memory and the check passes, or it raises the first address outside. -/
theorem rangeCheck_cases (a n : Nat) :
    ((n = 0 ∨ a + n ≤ Config.memSize) ∧ rangeCheck a n = .ok ()) ∨
    (0 < n ∧ Config.memSize < a + n ∧ rangeCheck a n = .error (.addressOutOfRange (max a 0x1000))) := by
  by_cases h : n = 0 ∨ a + n ≤ Config.memSize
  · exact .inl ⟨h, rangeCheck_ok h⟩
  · have h0 : 0 < n := by omega
    have h1 : Config.memSize < a + n := by omega
    exact .inr ⟨h0, h1, rangeCheck_error h0 h1⟩

theorem State.memReads_ok (s : State) (n : Nat) {a : Nat} (h : a + n ≤ Config.memSize) :
    s.memReads a n = .ok ((List.range n).map fun i => s.byte (a + i)) := by
  induction n generalizing a with
  | zero => rfl
  | succ n ih =>
    simp only [Config.memSize] at h ih
    have h1 : a ≤ lastAddr := by simp only [lastAddr]; omega
    simp only [State.memReads, State.memRead_ok s h1, ih (a := a + 1) (by omega), bind, Except.bind,
      List.range_succ_eq_map, List.map_cons, List.map_map, Nat.add_zero]
    congr 2
    refine List.map_congr_left fun i _ => ?_
    simp only [Function.comp]
    congr 1; omega

/-! ## The call stack (rules R20, R131, R132) -/

theorem State.push_ok (s : State) (a : Word) (h : s.sp ≠ Config.stackCap) :
    s.push a = .ok { s with stack := s.stack ++ [a] } := by rw [State.push, if_neg h]

theorem State.push_full (s : State) (a : Word) (h : s.sp = Config.stackCap) : s.push a = .error .stackOverflow := by
  rw [State.push, if_pos h]

theorem State.pop_ok (s : State) {l : List Word} {a : Word} (h : s.stack = l ++ [a]) :
    s.pop = .ok (a, { s with stack := l }) := by simp [State.pop, h]

theorem State.pop_empty (s : State) (h : s.stack = []) : s.pop = .error .stackUnderflow := by simp [State.pop, h]

/-- A pop underflows on the empty stack, and else takes the newest entry off. -/
theorem State.pop_cases (s : State) :
    (s.stack = [] ∧ s.pop = .error .stackUnderflow) ∨
    ∃ l a, s.stack = l ++ [a] ∧ s.pop = .ok (a, { s with stack := l }) := by
  rcases List.eq_nil_or_concat s.stack with h | ⟨l, a, h⟩
  · exact .inl ⟨h, State.pop_empty s h⟩
  · rw [List.concat_eq_append] at h
    exact .inr ⟨l, a, h, State.pop_ok s h⟩

/-- `peek` answers what `pop` would take off, and changes nothing. -/
theorem State.peek_eq (s : State) : s.peek = s.pop.map Prod.fst := by
  unfold State.peek State.pop
  split <;> rfl

/-! ## How a rule ends (rules R75, R137, R138) -/

theorem settle_ok (i : Instr) (s t : State) : settle i s (.ok t) = t := rfl

theorem settle_error (i : Instr) (s : State) (r : Raise) : settle i s (.error r) = s.takeFault (encode i) r := rfl

/-- A fault is taken as one of the three fatal kinds (rule R130). -/
theorem Raise.cause_cases (r : Raise) :
    (r = .stackOverflow ∧ r.cause = .stackOverflow ∧ r.faultAddr = 0) ∨
    (r = .stackUnderflow ∧ r.cause = .stackUnderflow ∧ r.faultAddr = 0) ∨
    ∃ a, r = .addressOutOfRange a ∧ r.cause = .addressOutOfRange ∧ r.faultAddr = BitVec.ofNat 16 a := by
  cases r
  · exact .inl ⟨rfl, rfl, rfl⟩
  · exact .inr (.inl ⟨rfl, rfl, rfl⟩)
  · exact .inr (.inr ⟨_, rfl, rfl, rfl⟩)

/-! ## The copy loops (rules R114, R115) -/

/-- The loop of `FX55` with its range in memory: it stores, changes memory only, and keeps it canonical. -/
theorem storeRegs_ok (a : Nat) (n i : Nat) (s : State) (h : a + i + n ≤ Config.memSize) :
    ∃ t, storeRegs a n i s = .ok t ∧ t = { s with mem := t.mem } ∧ (s.mem.wf → t.mem.wf) := by
  induction n generalizing i s with
  | zero => exact ⟨s, rfl, rfl, id⟩
  | succ n ih =>
    simp only [Config.memSize] at h ih
    have h1 : a + i ≤ lastAddr := by simp only [lastAddr]; omega
    simp only [storeRegs, State.memWrite_ok s h1, bind, Except.bind]
    obtain ⟨t, ht, he, hw⟩ := ih (i + 1) (s.setByte (a + i) (s.v (BitVec.ofNat 4 i))) (by omega)
    refine ⟨t, ht, he, fun hs => hw (State.setByte_wf hs (by simp only [lastAddr, Config.memSize] at h1 ⊢; omega) _)⟩

/-- The loop of `FX65` with its range in memory: it loads, changes memory only, and keeps it canonical. -/
theorem loadRegs_ok (a : Nat) (n i : Nat) (s : State) (h : a + i + n ≤ Config.memSize) :
    ∃ t, loadRegs a n i s = .ok t ∧ t = { s with mem := t.mem } ∧ (s.mem.wf → t.mem.wf) := by
  induction n generalizing i s with
  | zero => exact ⟨s, rfl, rfl, id⟩
  | succ n ih =>
    simp only [Config.memSize] at h ih
    have h1 : a + i ≤ lastAddr := by simp only [lastAddr]; omega
    simp only [loadRegs, State.memRead_ok s h1, bind, Except.bind]
    obtain ⟨t, ht, he, hw⟩ := ih (i + 1) (s.setV (BitVec.ofNat 4 i) (s.byte (a + i))) (by omega)
    exact ⟨t, ht, he, fun hs => hw (State.setV_wf hs _ _)⟩

/-! ## Drawing (rule R119) -/

theorem Display.pixel_toggle (d : Display) {x y : Nat} (hx : x < Config.dispW) (hy : y < Config.dispH) (x' y' : Nat) :
    (d.toggle x y).pixel x' y' = (d.pixel x' y' ^^ (decide (x' = x) && decide (y' = y))) := by
  simp only [Config.dispW, Config.dispH] at hx hy
  unfold Display.pixel Display.toggle
  by_cases h : y' = y
  · subst h
    simp [hy, BitVec.getLsbD_twoPow, hx, eq_comm]
  · simp [h, Ne.symm h]

/-- One sprite bit: the pixel it lands on, if it is 1 and on the screen, is toggled, and a pixel that was 1 is a hit. -/
theorem plot_spec (x y : Nat) (hy : y < Config.dispH) (bit : Bool) (p : Display × Bool) :
    (∀ x' y', (plot x y bit p).1.pixel x' y' =
      (p.1.pixel x' y' ^^ (bit && decide (x < Config.dispW) && decide (x' = x) && decide (y' = y)))) ∧
    (plot x y bit p).2 = (p.2 || (bit && decide (x < Config.dispW) && p.1.pixel x y)) := by
  unfold plot
  by_cases hx : x < Config.dispW
  · cases bit
    · simp
    · simp only [hx, true_and, if_true, decide_true, Bool.and_true, Bool.true_and]
      exact ⟨fun x' y' => Display.pixel_toggle p.1 hx hy x' y', trivial⟩
  · simp [hx]

/-- The first `k` columns of a sprite row: the pixels they toggle, and whether one of them was 1. -/
theorem drawRow_fold (x0 y : Nat) (hy : y < Config.dispH) (b : Byte) (p : Display × Bool) (k : Nat) :
    (∀ x' y', ((List.range k).foldl (fun q c => plot (x0 + c) y (b.getLsbD (7 - c)) q) p).1.pixel x' y' =
      (p.1.pixel x' y' ^^ (decide (y' = y ∧ x' < Config.dispW ∧ x0 ≤ x' ∧ x' < x0 + k) && b.getLsbD (7 - (x' - x0))))) ∧
    (((List.range k).foldl (fun q c => plot (x0 + c) y (b.getLsbD (7 - c)) q) p).2 = true ↔
      p.2 = true ∨ ∃ x', x' < Config.dispW ∧ x0 ≤ x' ∧ x' < x0 + k ∧ b.getLsbD (7 - (x' - x0)) = true ∧
        p.1.pixel x' y = true) := by
  induction k with
  | zero =>
    refine ⟨fun x' y' => ?_, ?_⟩
    · rw [decide_eq_false (by omega)]; simp
    · constructor
      · exact fun h => .inl h
      · rintro (h | ⟨x', -, h1, h2, -⟩)
        · exact h
        · omega
  | succ k ih =>
    obtain ⟨ih1, ih2⟩ := ih
    rw [List.range_succ, List.foldl_append, List.foldl_cons, List.foldl_nil]
    obtain ⟨h1, h2⟩ := plot_spec (x0 + k) y hy (b.getLsbD (7 - k))
      ((List.range k).foldl (fun q c => plot (x0 + c) y (b.getLsbD (7 - c)) q) p)
    refine ⟨fun x' y' => ?_, ?_⟩
    · rw [h1, ih1]
      by_cases hx : x' = x0 + k
      · subst hx
        rw [decide_eq_false (by omega : ¬(y' = y ∧ x0 + k < Config.dispW ∧ x0 ≤ x0 + k ∧ x0 + k < x0 + k))]
        rw [show x0 + k - x0 = k by omega]
        simp only [Bool.false_and, Bool.xor_false, decide_true, Bool.and_true]
        congr 1
        rw [Bool.and_assoc, Bool.and_comm]
        congr 1
        rw [← Bool.decide_and]
        exact decide_eq_decide.mpr ⟨fun ⟨h, h'⟩ => ⟨h', h, by omega, by omega⟩, fun ⟨h, h', _⟩ => ⟨h', h⟩⟩
      · rw [decide_eq_false hx]
        simp only [Bool.and_false, Bool.false_and, Bool.xor_false]
        congr 2
        exact decide_eq_decide.mpr ⟨fun ⟨h, h', h3, h4⟩ => ⟨h, h', h3, by omega⟩, fun ⟨h, h', h3, h4⟩ => ⟨h, h', h3, by omega⟩⟩
    · rw [h2, Bool.or_eq_true, ih2, Bool.and_eq_true, Bool.and_eq_true, decide_eq_true_iff, ih1]
      rw [decide_eq_false (by omega : ¬(y = y ∧ x0 + k < Config.dispW ∧ x0 ≤ x0 + k ∧ x0 + k < x0 + k))]
      simp only [Bool.false_and, Bool.xor_false]
      constructor
      · rintro ((h | ⟨x', h3, h4, h5, h6, h7⟩) | ⟨⟨h3, h4⟩, h5⟩)
        · exact .inl h
        · exact .inr ⟨x', h3, h4, by omega, h6, h7⟩
        · exact .inr ⟨x0 + k, h4, by omega, by omega, by rwa [show x0 + k - x0 = k by omega], h5⟩
      · rintro (h | ⟨x', h3, h4, h5, h6, h7⟩)
        · exact .inl (.inl h)
        · by_cases hx : x' = x0 + k
          · subst hx
            rw [show x0 + k - x0 = k by omega] at h6
            exact .inr ⟨⟨h6, h3⟩, h7⟩
          · exact .inl (.inr ⟨x', h3, h4, by omega, h6, h7⟩)

/-- The pixels the rows of a sprite toggle, and whether one of them was 1 (rule R119): a pixel is toggled when it lies on
the screen, within the sprite, and its bit of the sprite is 1. -/
theorem drawRows_spec (x0 : Nat) (bs : List Byte) (y0 : Nat) (p : Display × Bool) :
    (∀ x y, (drawRows x0 y0 bs p).1.pixel x y =
      (p.1.pixel x y ^^ (decide (x < Config.dispW ∧ y < Config.dispH ∧ x0 ≤ x ∧ x < x0 + Config.spriteW ∧ y0 ≤ y ∧
        y < y0 + bs.length) && (bs[y - y0]?.getD 0).getLsbD (7 - (x - x0))))) ∧
    ((drawRows x0 y0 bs p).2 = true ↔ p.2 = true ∨ ∃ x y, (x < Config.dispW ∧ y < Config.dispH ∧ x0 ≤ x ∧
      x < x0 + Config.spriteW ∧ y0 ≤ y ∧ y < y0 + bs.length) ∧ (bs[y - y0]?.getD 0).getLsbD (7 - (x - x0)) = true ∧
        p.1.pixel x y = true) := by
  induction bs generalizing y0 p with
  | nil =>
    simp only [drawRows, List.length_nil]
    refine ⟨fun x y => ?_, ?_⟩
    · rw [decide_eq_false (by omega)]; simp
    · constructor
      · exact fun h => .inl h
      · rintro (h | ⟨x, y, h, -⟩)
        · exact h
        · omega
  | cons b bs ih =>
    simp only [drawRows]
    obtain ⟨i1, i2⟩ := ih (y0 + 1) (if y0 < Config.dispH then drawRow x0 y0 b p else p)
    by_cases hy : y0 < Config.dispH
    · obtain ⟨r1, r2⟩ := drawRow_fold x0 y0 hy b p Config.spriteW
      rw [if_pos hy] at i1 i2
      rw [if_pos hy]
      have e : ∀ y, y0 < y → (b :: bs)[y - y0]?.getD 0 = bs[y - (y0 + 1)]?.getD 0 := by
        intro y h
        rw [show y - y0 = (y - (y0 + 1)) + 1 by omega]; simp
      refine ⟨fun x y => ?_, ?_⟩
      · rw [i1, drawRow, r1]
        by_cases h : y = y0
        · subst h
          rw [decide_eq_false (by omega : ¬(x < Config.dispW ∧ y < Config.dispH ∧ x0 ≤ x ∧ x < x0 + Config.spriteW ∧
            y + 1 ≤ y ∧ y < y + 1 + bs.length))]
          simp only [Bool.false_and, Bool.xor_false, Nat.sub_self, List.getElem?_cons_zero, Option.getD_some]
          congr 2
          exact decide_eq_decide.mpr ⟨fun ⟨_, h2, h3, h4⟩ => ⟨h2, hy, h3, h4, by omega, by simp⟩,
            fun ⟨h2, _, h3, h4, _, _⟩ => ⟨by trivial, h2, h3, h4⟩⟩
        · rw [decide_eq_false (by omega : ¬(y = y0 ∧ x < Config.dispW ∧ x0 ≤ x ∧ x < x0 + Config.spriteW))]
          simp only [Bool.false_and, Bool.xor_false]
          congr 1
          by_cases hlt : y0 < y
          · rw [e y hlt]
            congr 1
            exact decide_eq_decide.mpr ⟨fun ⟨a, b, c, d, f, g⟩ => ⟨a, b, c, d, by omega, by simp; omega⟩,
              fun ⟨a, b, c, d, f, g⟩ => ⟨a, b, c, d, by omega, by simp at g; omega⟩⟩
          · rw [decide_eq_false (by omega), decide_eq_false (by omega)]; simp
      · rw [i2, drawRow, r2]
        constructor
        · rintro ((h | ⟨x, a, c, d, f, g⟩) | ⟨x, y, ⟨a1, a2, a3, a4, a5, a6⟩, f, g⟩)
          · exact .inl h
          · exact .inr ⟨x, y0, ⟨a, hy, c, d, by omega, by simp⟩, by simpa using f, g⟩
          · refine .inr ⟨x, y, ⟨a1, a2, a3, a4, by omega, by simp; omega⟩, by rwa [e y (by omega)], ?_⟩
            rw [r1, decide_eq_false (by omega)] at g
            simpa using g
        · rintro (h | ⟨x, y, ⟨a1, a2, a3, a4, a5, a6⟩, f, g⟩)
          · exact .inl (.inl h)
          · by_cases h : y = y0
            · subst h
              exact .inl (.inr ⟨x, a1, a3, a4, by simpa using f, g⟩)
            · refine .inr ⟨x, y, ⟨a1, a2, a3, a4, by omega, by simp at a6; omega⟩, by rwa [e y (by omega)] at f, ?_⟩
              rw [r1, decide_eq_false (by omega)]
              simpa using g
    · rw [if_neg hy] at i1 i2
      rw [if_neg hy]
      refine ⟨fun x y => ?_, ?_⟩
      · rw [i1, decide_eq_false (by omega), decide_eq_false (by omega)]; simp
      · rw [i2]
        constructor
        · rintro (h | ⟨x, y, h, -⟩)
          · exact .inl h
          · omega
        · rintro (h | ⟨x, y, h, -⟩)
          · exact .inl h
          · omega

/-- Displays with the same pixels are equal. -/
theorem Display.ext_pixel {d e : Display} (h : ∀ px py, d.pixel px py = e.pixel px py) : d = e := by
  apply Vector.ext
  intro i hi
  apply BitVec.eq_of_getLsbD_eq
  intro j _
  simpa [Display.pixel, hi] using h j i

/-! ## Operand forms (rules R63, R112, R124, R126) -/

theorem zext16_toNat (n : Addr12) : (zext16 n).toNat = n.toNat := by
  have := n.isLt
  simp [zext16]; omega

theorem lowNibble_eq_mod (v : Byte) : lowNibble v = v.toNat % 16 := by
  simp only [lowNibble, BitVec.toNat_and]
  exact Nat.and_two_pow_sub_one_eq_mod v.toNat 4

/-- The lowest key of a word is the one that is 1 with every lower one 0. -/
theorem lowestKey_eq {w : Word} {k : Nat} (hk : k < 16) (h : w.getLsbD k = true)
    (hl : ∀ j, j < k → w.getLsbD j = false) : lowestKey w = k := by
  have : (List.range 16).find? (w.getLsbD ·) = some k := by
    rw [List.find?_range_eq_some]
    exact ⟨h, by simpa using hk, by simpa using hl⟩
  rw [lowestKey, Config.numKeys, this]; rfl

end Sys2Proof.Machine
end

