-- ==== Sys2Proof/Laws/Frame.lean ====
section
/-! SUPPORT. The frame of each write to memory, and how frames compose: a proof of what an instruction leaves alone is a
chain of these. -/

namespace Sys2Proof.Machine

theorem State.WritesOnly.refl (s : State) : s.WritesOnly s [] := ⟨rfl, fun _ _ => rfl⟩

/-- A frame that allows more. -/
theorem State.WritesOnly.mono {s t : State} {as bs : List Nat} (h : s.WritesOnly t as) (hab : ∀ a ∈ as, a ∈ bs) :
    s.WritesOnly t bs := ⟨h.1, fun a ha => h.2 a (fun hm => ha (hab a hm))⟩

/-- Two writes after one another. -/
theorem State.WritesOnly.trans {s t u : State} {as bs : List Nat} (h : s.WritesOnly t as) (k : t.WritesOnly u bs) :
    s.WritesOnly u (as ++ bs) := by
  refine ⟨?_, fun a ha => ?_⟩
  · rw [k.1, h.1]
  · simp only [List.mem_append, not_or] at ha
    rw [k.2 a ha.2, h.2 a ha.1]

theorem State.setByte_writesOnly (s : State) (a : Nat) (v : Byte) : s.WritesOnly (s.setByte a v) [a] :=
  ⟨rfl, fun b hb => by rw [State.setByte_byte, if_neg (by simpa using hb)]⟩

theorem State.setV_writesOnly (s : State) (x : Reg) (v : Byte) : s.WritesOnly (s.setV x v) [vAddr x] :=
  State.setByte_writesOnly s _ v

theorem State.setWord_writesOnly (s : State) (a : Nat) (w : Word) : s.WritesOnly (s.setWord a w) [a, a + 1] :=
  (State.setByte_writesOnly s a _).trans (State.setByte_writesOnly _ (a + 1) _)

theorem State.setRegI_writesOnly (s : State) (w : Word) : s.WritesOnly (s.setRegI w) iBytes :=
  State.setWord_writesOnly s iAddr w

theorem State.setPc_writesOnly (s : State) (w : Word) : s.WritesOnly (s.setPc w) pcBytes :=
  State.setWord_writesOnly s pcAddr w

theorem State.setDt_writesOnly (s : State) (v : Byte) : s.WritesOnly (s.setDt v) [dtAddr] :=
  State.setByte_writesOnly s _ v

theorem State.setSt_writesOnly (s : State) (v : Byte) : s.WritesOnly (s.setSt v) [stAddr] :=
  State.setByte_writesOnly s _ v

theorem State.advance_writesOnly (s : State) : s.WritesOnly s.advance pcBytes := State.setPc_writesOnly s _

theorem State.skipIf_writesOnly (s : State) (c : Bool) : s.WritesOnly (s.skipIf c) pcBytes := by
  cases c
  · exact State.advance_writesOnly s
  · exact State.setPc_writesOnly s _

theorem State.setResultFlag_writesOnly (s : State) (x : Reg) (r f : Byte) :
    s.WritesOnly (s.setResultFlag x r f) [vAddr x, vAddr vf] :=
  (State.setV_writesOnly s x r).trans (State.setV_writesOnly _ vf f)

/-! ## Results and flags (rules R12, R79) -/

@[simp] theorem State.setResultFlag_pc (s : State) (x : Reg) (r f : Byte) : (s.setResultFlag x r f).pc = s.pc := by
  simp [State.setResultFlag]

/-- With X = F the flag stays, else the result and the flag stand side by side. -/
theorem State.setResultFlag_v (s : State) (x y : Reg) (r f : Byte) :
    (s.setResultFlag x r f).v y = if y = vf then f else if y = x then r else s.v y := by
  simp [State.setResultFlag]

/-- A flag is exactly 0 or 1 (rule R107). -/
theorem flagByte_cases (b : Bool) : flagByte b = 0 ∨ flagByte b = 1 := by cases b <;> simp [flagByte]

theorem flagByte_eq_one {b : Bool} : flagByte b = 1 ↔ b = true := by cases b <;> simp [flagByte]

/-! ## The copy loops (rules R114, R115): which bytes they write -/

theorem storeRegs_writesOnly {a n i : Nat} {s t : State} (h : storeRegs a n i s = .ok t) :
    s.WritesOnly t ((List.range n).map (a + i + ·)) := by
  induction n generalizing i s with
  | zero =>
    obtain rfl : s = t := by simpa [storeRegs] using h
    exact State.WritesOnly.refl s
  | succ n ih =>
    simp only [storeRegs, bind, Except.bind, State.memWrite] at h
    split at h
    · simp at h
    · next s' hs =>
      split at hs
      · simp at hs
      · obtain rfl := Except.ok.inj hs
        refine ((State.setByte_writesOnly s (a + i) _).trans (ih h)).mono fun b hb => ?_
        simp only [List.mem_append, List.mem_singleton, List.mem_map, List.mem_range] at hb ⊢
        rcases hb with rfl | ⟨k, hk, rfl⟩
        · exact ⟨0, by omega, rfl⟩
        · exact ⟨k + 1, by omega, by omega⟩

theorem loadRegs_writesOnly {a n i : Nat} {s t : State} (hn : i + n ≤ 16) (h : loadRegs a n i s = .ok t) :
    s.WritesOnly t ((List.range n).map (vAddr 0 + i + ·)) := by
  induction n generalizing i s with
  | zero =>
    obtain rfl : s = t := by simpa [loadRegs] using h
    exact State.WritesOnly.refl s
  | succ n ih =>
    simp only [loadRegs, bind, Except.bind, State.memRead] at h
    split at h
    · simp at h
    · next b hb =>
      split at hb
      · simp at hb
      · refine ((State.setV_writesOnly s (BitVec.ofNat 4 i) b).trans (ih (by omega) h)).mono fun c hc => ?_
        have hv : vAddr (BitVec.ofNat 4 i) = vAddr 0 + i := by
          simp only [vAddr, BitVec.toNat_ofNat]
          rw [Nat.mod_eq_of_lt (by omega)]; simp
        simp only [List.mem_append, List.mem_singleton, List.mem_map, List.mem_range, hv] at hc ⊢
        rcases hc with rfl | ⟨k, hk, rfl⟩
        · exact ⟨0, by omega, rfl⟩
        · exact ⟨k + 1, by omega, by omega⟩

/-! ## A register write, then the PC update: the frame of most instructions (rule R80) -/

theorem State.setV_advance_writesOnly (s : State) (x : Reg) (v : Byte) :
    s.WritesOnly (s.setV x v).advance (vAddr x :: pcBytes) :=
  (State.setV_writesOnly s x v).trans (State.advance_writesOnly _)

theorem State.setResultFlag_advance_writesOnly (s : State) (x : Reg) (r f : Byte) :
    s.WritesOnly (s.setResultFlag x r f).advance (vAddr x :: vAddr vf :: pcBytes) :=
  (State.setResultFlag_writesOnly s x r f).trans (State.advance_writesOnly _)

theorem State.setRegI_advance_writesOnly (s : State) (w : Word) :
    s.WritesOnly (s.setRegI w).advance (iBytes ++ pcBytes) :=
  (State.setRegI_writesOnly s w).trans (State.advance_writesOnly _)

end Sys2Proof.Machine
end

