-- ==== Sys2Proof/Laws/PerInstr.lean ====
section
/-! SUPPORT. A statement for all instructions, made per instruction: the encoding of an instruction matches that
instruction's own row of the opcode map (rule R69). -/

namespace Sys2Proof.Laws.EncodesToItsRow

/-- The word of the instruction has its row's fixed bits (rule R69). -/
def Statement (i : Instr) : Prop := i.row.accepts (encode i) = true

theorem mask_class_NNN (c : BitVec 4) (nnn : Addr12) : formatNNN c nnn &&& 0xF000#16 = formatNNN c 0 := by
  show (c ++ nnn) &&& ((0xF#4 : BitVec 4) ++ (0#12 : BitVec 12)) = c ++ (0#12 : BitVec 12)
  rw [BitVec.and_append]
  congr 1
  · exact BitVec.and_allOnes
  · exact BitVec.and_zero

theorem mask_class_XNN (c : BitVec 4) (x : Reg) (nn : Byte) : formatXNN c x nn &&& 0xF000#16 = formatXNN c 0 0 := by
  show (c ++ x ++ nn) &&& ((0xF#4 : BitVec 4) ++ (0#4 : BitVec 4) ++ (0#8 : BitVec 8)) = c ++ 0#4 ++ 0#8
  rw [BitVec.and_append, BitVec.and_append]
  congr 1
  · congr 1
    · exact BitVec.and_allOnes
    · exact BitVec.and_zero
  · exact BitVec.and_zero

theorem mask_class_low (c : BitVec 4) (x : Reg) (nn : Byte) : formatXNN c x nn &&& 0xF0FF#16 = formatXNN c 0 nn := by
  show (c ++ x ++ nn) &&& ((0xF#4 : BitVec 4) ++ (0#4 : BitVec 4) ++ (0xFF#8 : BitVec 8)) = c ++ 0#4 ++ nn
  rw [BitVec.and_append, BitVec.and_append]
  congr 1
  · congr 1
    · exact BitVec.and_allOnes
    · exact BitVec.and_zero
  · exact BitVec.and_allOnes

theorem mask_class_XYN (c : BitVec 4) (x y : Reg) (n : Count) : formatXYN c x y n &&& 0xF000#16 = formatXYN c 0 0 0 := by
  show (c ++ x ++ y ++ n) &&& ((0xF#4 : BitVec 4) ++ (0#4 : BitVec 4) ++ (0#4 : BitVec 4) ++ (0#4 : BitVec 4)) =
    c ++ 0#4 ++ 0#4 ++ 0#4
  rw [BitVec.and_append, BitVec.and_append, BitVec.and_append]
  congr 1
  · congr 1
    · congr 1
      · exact BitVec.and_allOnes
      · exact BitVec.and_zero
    · exact BitVec.and_zero
  · exact BitVec.and_zero

theorem mask_class_digit (c : BitVec 4) (x y : Reg) (n : Count) :
    formatXYN c x y n &&& 0xF00F#16 = formatXYN c 0 0 n := by
  show (c ++ x ++ y ++ n) &&& ((0xF#4 : BitVec 4) ++ (0#4 : BitVec 4) ++ (0#4 : BitVec 4) ++ (0xF#4 : BitVec 4)) =
    c ++ 0#4 ++ 0#4 ++ n
  rw [BitVec.and_append, BitVec.and_append, BitVec.and_append]
  congr 1
  · congr 1
    · congr 1
      · exact BitVec.and_allOnes
      · exact BitVec.and_zero
    · exact BitVec.and_zero
  · exact BitVec.and_allOnes

theorem ofNNN {c : BitVec 4} {r : OpcodeRow} (h : r = ⟨0xF000#16, formatNNN c 0⟩) (nnn : Addr12) :
    r.accepts (formatNNN c nnn) = true := by
  subst h; simp only [OpcodeRow.accepts, mask_class_NNN, beq_self_eq_true]
theorem ofXNN {c : BitVec 4} {r : OpcodeRow} (h : r = ⟨0xF000#16, formatXNN c 0 0⟩) (x : Reg) (nn : Byte) :
    r.accepts (formatXNN c x nn) = true := by
  subst h; simp only [OpcodeRow.accepts, mask_class_XNN, beq_self_eq_true]
theorem ofXSS {c : BitVec 4} {nn : Byte} {r : OpcodeRow} (h : r = ⟨0xF0FF#16, formatXNN c 0 nn⟩) (x : Reg) :
    r.accepts (formatXNN c x nn) = true := by
  subst h; simp only [OpcodeRow.accepts, mask_class_low, beq_self_eq_true]
theorem ofXYN {c : BitVec 4} {r : OpcodeRow} (h : r = ⟨0xF000#16, formatXYN c 0 0 0⟩) (x y : Reg) (n : Count) :
    r.accepts (formatXYN c x y n) = true := by
  subst h; simp only [OpcodeRow.accepts, mask_class_XYN, beq_self_eq_true]
theorem ofXYS {c : BitVec 4} {n : Count} {r : OpcodeRow} (h : r = ⟨0xF00F#16, formatXYN c 0 0 n⟩) (x y : Reg) :
    r.accepts (formatXYN c x y n) = true := by
  subst h; simp only [OpcodeRow.accepts, mask_class_digit, beq_self_eq_true]

theorem cls : Statement .cls := rfl
theorem ret : Statement .ret := rfl
theorem jp (nnn : Addr12) : Statement (.jp nnn) := ofNNN (c := 0x1) rfl nnn
theorem call (nnn : Addr12) : Statement (.call nnn) := ofNNN (c := 0x2) rfl nnn
theorem seI (x : Reg) (nn : Byte) : Statement (.seI x nn) := ofXNN (c := 0x3) rfl x nn
theorem sneI (x : Reg) (nn : Byte) : Statement (.sneI x nn) := ofXNN (c := 0x4) rfl x nn
theorem seR (x y : Reg) : Statement (.seR x y) := ofXYS (c := 0x5) (n := 0x0) rfl x y
theorem sneR (x y : Reg) : Statement (.sneR x y) := ofXYS (c := 0x9) (n := 0x0) rfl x y
theorem ldI (x : Reg) (nn : Byte) : Statement (.ldI x nn) := ofXNN (c := 0x6) rfl x nn
theorem addI (x : Reg) (nn : Byte) : Statement (.addI x nn) := ofXNN (c := 0x7) rfl x nn
theorem ldR (x y : Reg) : Statement (.ldR x y) := ofXYS (c := 0x8) (n := 0x0) rfl x y
theorem orR (x y : Reg) : Statement (.orR x y) := ofXYS (c := 0x8) (n := 0x1) rfl x y
theorem andR (x y : Reg) : Statement (.andR x y) := ofXYS (c := 0x8) (n := 0x2) rfl x y
theorem xorR (x y : Reg) : Statement (.xorR x y) := ofXYS (c := 0x8) (n := 0x3) rfl x y
theorem addR (x y : Reg) : Statement (.addR x y) := ofXYS (c := 0x8) (n := 0x4) rfl x y
theorem sub (x y : Reg) : Statement (.sub x y) := ofXYS (c := 0x8) (n := 0x5) rfl x y
theorem shr (x y : Reg) : Statement (.shr x y) := ofXYS (c := 0x8) (n := 0x6) rfl x y
theorem subn (x y : Reg) : Statement (.subn x y) := ofXYS (c := 0x8) (n := 0x7) rfl x y
theorem shl (x y : Reg) : Statement (.shl x y) := ofXYS (c := 0x8) (n := 0xE) rfl x y
theorem ldIdx (nnn : Addr12) : Statement (.ldIdx nnn) := ofNNN (c := 0xA) rfl nnn
theorem jpV0 (nnn : Addr12) : Statement (.jpV0 nnn) := ofNNN (c := 0xB) rfl nnn
theorem rnd (x : Reg) (nn : Byte) : Statement (.rnd x nn) := ofXNN (c := 0xC) rfl x nn
theorem drw (x y : Reg) (n : Count) : Statement (.drw x y n) := ofXYN (c := 0xD) rfl x y n
theorem skp (x : Reg) : Statement (.skp x) := ofXSS (c := 0xE) (nn := 0x9E) rfl x
theorem sknp (x : Reg) : Statement (.sknp x) := ofXSS (c := 0xE) (nn := 0xA1) rfl x
theorem ldVxDt (x : Reg) : Statement (.ldVxDt x) := ofXSS (c := 0xF) (nn := 0x07) rfl x
theorem ldVxK (x : Reg) : Statement (.ldVxK x) := ofXSS (c := 0xF) (nn := 0x0A) rfl x
theorem ldDtVx (x : Reg) : Statement (.ldDtVx x) := ofXSS (c := 0xF) (nn := 0x15) rfl x
theorem ldStVx (x : Reg) : Statement (.ldStVx x) := ofXSS (c := 0xF) (nn := 0x18) rfl x
theorem addIdx (x : Reg) : Statement (.addIdx x) := ofXSS (c := 0xF) (nn := 0x1E) rfl x
theorem ldF (x : Reg) : Statement (.ldF x) := ofXSS (c := 0xF) (nn := 0x29) rfl x
theorem ldB (x : Reg) : Statement (.ldB x) := ofXSS (c := 0xF) (nn := 0x33) rfl x
theorem stRegs (x : Reg) : Statement (.stRegs x) := ofXSS (c := 0xF) (nn := 0x55) rfl x
theorem ldRegs (x : Reg) : Statement (.ldRegs x) := ofXSS (c := 0xF) (nn := 0x65) rfl x

end Sys2Proof.Laws.EncodesToItsRow
end

