-- ==== Sys2Proof/Laws/Step.lean ====
section
/-! SUPPORT. What one execution, one event and one step can do, said once: proofs about runs cite these and do not unfold
`exec`, `deliver` or `step` again. -/

namespace Sys2Proof.Machine

/-! ## What an instruction that completes keeps -/

/-- The part of the state no instruction that completes touches, and the two facts about the rest that every one of them
keeps: canonical memory and at most 16 calls outstanding (rules R20, R80). -/
structure State.Completes (s t : State) : Prop where
  kprev : t.kprev = s.kprev
  run : t.run = s.run
  cause : t.cause = s.cause
  faultPc : t.faultPc = s.faultPc
  faultOpcode : t.faultOpcode = s.faultOpcode
  faultAddr : t.faultAddr = s.faultAddr
  haltReason : t.haltReason = s.haltReason
  keys : t.keys = s.keys
  rnd : t.rnd = s.rnd
  inbox : t.inbox = s.inbox
  eventNo : t.eventNo = s.eventNo
  wf : s.mem.wf → t.mem.wf
  depth : s.sp ≤ Config.stackCap → t.sp ≤ Config.stackCap

/-- An instruction that changes memory alone completes. -/
theorem State.Completes.of_mem {s t : State} (h : t = { s with mem := t.mem }) (hw : s.mem.wf → t.mem.wf) :
    s.Completes t := by
  constructor
  case wf => exact hw
  all_goals rw [h]
  exact id

theorem setPc_completes (s : State) (w : Word) : s.Completes (s.setPc w) := .of_mem rfl (fun h => State.setPc_wf h w)
theorem advance_completes (s : State) : s.Completes s.advance := .of_mem rfl State.advance_wf
theorem skipIf_completes (s : State) (c : Bool) : s.Completes (s.skipIf c) :=
  .of_mem (State.skipIf_writesOnly s c).1 (fun h => State.skipIf_wf h c)
theorem setV_advance_completes (s : State) (x : Reg) (v : Byte) : s.Completes (s.setV x v).advance :=
  .of_mem rfl (fun h => State.advance_wf (State.setV_wf h x v))
theorem setResultFlag_advance_completes (s : State) (x : Reg) (r f : Byte) : s.Completes (s.setResultFlag x r f).advance :=
  .of_mem rfl (fun h => State.advance_wf (State.setResultFlag_wf h x r f))
theorem setRegI_advance_completes (s : State) (w : Word) : s.Completes (s.setRegI w).advance :=
  .of_mem rfl (fun h => State.advance_wf (State.setRegI_wf h w))

/-! ## How each rule that can raise ends (rule R135) -/

/-- An offending address is above 0xFFF and is a 16-bit number (rule R133). -/
def Raise.InRange : Raise → Prop
  | .addressOutOfRange a => lastAddr < a ∧ a < 65536
  | _ => True

/-- FAULT_ADDR is above 0xFFF exactly when the kind is AddressOutOfRange (rules R24, R133). -/
theorem Raise.faultAddr_above {r : Raise} (h : r.InRange) (hc : r.cause = .addressOutOfRange) :
    lastAddr < r.faultAddr.toNat := by
  cases r with
  | addressOutOfRange a =>
    obtain ⟨h1, h2⟩ := h
    simp only [Raise.faultAddr, BitVec.toNat_ofNat]
    rwa [Nat.mod_eq_of_lt (by omega)]
  | stackOverflow => cases hc
  | stackUnderflow => cases hc

theorem retRule_cases (s : State) :
    (s.sp = 0 ∧ retRule s = .error .stackUnderflow) ∨
    ∃ l a, s.stack = l ++ [a] ∧ retRule s = .ok ({ s with stack := l }.setPc a) := by
  rcases s.pop_cases with ⟨h, hp⟩ | ⟨l, a, h, hp⟩
  · exact .inl ⟨by rw [State.sp, h]; rfl, by rw [retRule, hp]; rfl⟩
  · exact .inr ⟨l, a, h, by rw [retRule, hp]; rfl⟩

theorem callRule_cases (nnn : Addr12) (s : State) :
    (s.sp = Config.stackCap ∧ callRule nnn s = .error .stackOverflow) ∨
    (s.sp ≠ Config.stackCap ∧
      callRule nnn s = .ok ({ s with stack := s.stack ++ [s.pc + 2] }.setPc (zext16 nnn))) := by
  by_cases h : s.sp = Config.stackCap
  · exact .inl ⟨h, by rw [callRule, State.push_full s _ h]; rfl⟩
  · exact .inr ⟨h, by rw [callRule, State.push_ok s _ h]; rfl⟩

theorem jpV0Rule_cases (nnn : Addr12) (s : State) :
    (lastAddr < jpV0Target nnn s ∧ jpV0Rule nnn s = .error (.addressOutOfRange (jpV0Target nnn s))) ∨
    (jpV0Target nnn s ≤ lastAddr ∧ jpV0Rule nnn s = .ok (s.setPc (BitVec.ofNat 16 (jpV0Target nnn s)))) := by
  by_cases h : lastAddr < jpV0Target nnn s
  · exact .inl ⟨h, by rw [jpV0Rule, if_pos h]⟩
  · exact .inr ⟨by omega, by rw [jpV0Rule, if_neg h]⟩

/-- The address a range that leaves memory raises (rule R46). -/
abbrev outsideFrom (s : State) : Raise := .addressOutOfRange (max s.base 0x1000)

theorem outsideFrom_inRange (s : State) : (outsideFrom s).InRange := by
  have := s.regI.isLt
  simp only [Raise.InRange, State.base, lastAddr]
  omega

theorem jpV0Target_inRange {nnn : Addr12} {s : State} (h : lastAddr < jpV0Target nnn s) :
    (Raise.addressOutOfRange (jpV0Target nnn s)).InRange := by
  have := nnn.isLt
  have := (s.v 0).isLt
  refine ⟨h, ?_⟩
  simp only [jpV0Target]
  omega

theorem ldBRule_cases (x : Reg) (s : State) :
    (Config.memSize < s.base + 3 ∧ ldBRule x s = .error (outsideFrom s)) ∨
    (s.base + 3 ≤ Config.memSize ∧
      ldBRule x s = .ok (((s.setByte s.base (hundreds (s.v x))).setByte (s.base + 1) (tens (s.v x))).setByte
        (s.base + 2) (ones (s.v x))).advance) := by
  rcases rangeCheck_cases s.base 3 with ⟨h, hc⟩ | ⟨-, h, hc⟩
  · have h : s.base + 3 ≤ Config.memSize := by omega
    have hl : s.base + 2 ≤ lastAddr := by simp only [Config.memSize, lastAddr] at h ⊢; omega
    refine .inr ⟨h, ?_⟩
    rw [ldBRule, hc]
    simp only [bind, Except.bind]
    rw [State.memWrite_ok s (by omega)]
    simp only []
    rw [State.memWrite_ok _ (by omega)]
    simp only []
    rw [State.memWrite_ok _ hl]
  · exact .inl ⟨h, by rw [ldBRule, hc]; rfl⟩

theorem stRegsRule_cases (x : Reg) (s : State) :
    (Config.memSize < s.base + (x.toNat + 1) ∧ stRegsRule x s = .error (outsideFrom s)) ∨
    (s.base + (x.toNat + 1) ≤ Config.memSize ∧
      ∃ u, storeRegs s.base (x.toNat + 1) 0 s = .ok u ∧ stRegsRule x s = .ok u.advance) := by
  rcases rangeCheck_cases s.base (x.toNat + 1) with ⟨h, hc⟩ | ⟨-, h, hc⟩
  · have h : s.base + (x.toNat + 1) ≤ Config.memSize := by omega
    obtain ⟨u, hu, -⟩ := storeRegs_ok s.base (x.toNat + 1) 0 s (by omega)
    exact .inr ⟨h, u, hu, by rw [stRegsRule, hc]; simp only [bind, Except.bind, hu]⟩
  · exact .inl ⟨h, by rw [stRegsRule, hc]; rfl⟩

theorem ldRegsRule_cases (x : Reg) (s : State) :
    (Config.memSize < s.base + (x.toNat + 1) ∧ ldRegsRule x s = .error (outsideFrom s)) ∨
    (s.base + (x.toNat + 1) ≤ Config.memSize ∧
      ∃ u, loadRegs s.base (x.toNat + 1) 0 s = .ok u ∧ ldRegsRule x s = .ok u.advance) := by
  rcases rangeCheck_cases s.base (x.toNat + 1) with ⟨h, hc⟩ | ⟨-, h, hc⟩
  · have h : s.base + (x.toNat + 1) ≤ Config.memSize := by omega
    obtain ⟨u, hu, -⟩ := loadRegs_ok s.base (x.toNat + 1) 0 s (by omega)
    exact .inr ⟨h, u, hu, by rw [ldRegsRule, hc]; simp only [bind, Except.bind, hu]⟩
  · exact .inl ⟨h, by rw [ldRegsRule, hc]; rfl⟩

/-- What `DXYN` draws when its range is in memory: the rows are the N bytes from I (rule R119). -/
def drawnBy (x y : Reg) (n : Count) (s : State) : Display × Bool :=
  drawRows (spriteCol (s.v x)) (spriteRow (s.v y)) ((List.range n.toNat).map fun i => s.byte (s.base + i)) (s.disp, false)

/-- What is drawn: the pixels under a 1 bit of the sprite are toggled, and a pixel of them that was 1 is a collision
(rules R119, R121). -/
theorem drawnBy_spec (x y : Reg) (n : Count) (s : State) :
    (∀ px py, (drawnBy x y n s).1.pixel px py = (s.pixel px py ^^ s.spriteBit x y n px py)) ∧
    ((drawnBy x y n s).2 = true ↔ ∃ px py, s.spriteBit x y n px py = true ∧ s.pixel px py = true) := by
  obtain ⟨h1, h2⟩ := drawRows_spec (spriteCol (s.v x)) (((List.range n.toNat).map fun i => s.byte (s.base + i)))
    (spriteRow (s.v y)) (s.disp, false)
  have key : ∀ px py, (decide (px < Config.dispW ∧ py < Config.dispH ∧ spriteCol (s.v x) ≤ px ∧
      px < spriteCol (s.v x) + Config.spriteW ∧ spriteRow (s.v y) ≤ py ∧
      py < spriteRow (s.v y) + ((List.range n.toNat).map fun i => s.byte (s.base + i)).length) &&
        (((List.range n.toNat).map fun i => s.byte (s.base + i))[py - spriteRow (s.v y)]?.getD 0).getLsbD
          (7 - (px - spriteCol (s.v x)))) = s.spriteBit x y n px py := by
    intro px py
    simp only [List.length_map, List.length_range, State.spriteBit, spriteCol, spriteRow, Config.dispW, Config.dispH,
      Config.spriteW, State.base]
    by_cases h : px < 64 ∧ py < 32 ∧ (s.v x).toNat % 64 ≤ px ∧ px < (s.v x).toNat % 64 + 8 ∧
        (s.v y).toNat % 32 ≤ py ∧ py < (s.v y).toNat % 32 + n.toNat
    · rw [decide_eq_true h]
      have : py - (s.v y).toNat % 32 < n.toNat := by omega
      simp [this]
    · rw [decide_eq_false h]; simp
  refine ⟨fun px py => ?_, ?_⟩
  · rw [← key]; exact h1 px py
  · rw [drawnBy, h2]
    simp only [Bool.false_eq_true, false_or]
    constructor
    · rintro ⟨px, py, h, k, l⟩
      exact ⟨px, py, by rw [← key, decide_eq_true h, k]; rfl, l⟩
    · rintro ⟨px, py, h, l⟩
      rw [← key, Bool.and_eq_true, decide_eq_true_iff] at h
      exact ⟨px, py, h.1, h.2, l⟩

theorem drwRule_cases (x y : Reg) (n : Count) (s : State) :
    (0 < n.toNat ∧ Config.memSize < s.base + n.toNat ∧ drwRule x y n s = .error (outsideFrom s)) ∨
    ((n.toNat = 0 ∨ s.base + n.toNat ≤ Config.memSize) ∧
      drwRule x y n s = .ok (({ s with disp := (drawnBy x y n s).1 }.setV vf
        (flagByte (drawnBy x y n s).2)).markDisplay.advance)) := by
  rcases rangeCheck_cases s.base n.toNat with ⟨h, hc⟩ | ⟨h0, h, hc⟩
  · refine .inr ⟨h, ?_⟩
    have hr : s.memReads s.base n.toNat = .ok ((List.range n.toNat).map fun i => s.byte (s.base + i)) := by
      rcases h with h | h
      · rw [h]; rfl
      · exact State.memReads_ok s n.toNat h
    rw [drwRule, hc]
    simp only [bind, Except.bind, hr]
    rfl
  · exact .inl ⟨h0, h, by rw [drwRule, hc]; rfl⟩

/-! ## What `exec` can answer -/

/-- An instruction always answers a next state: it completes, or it has taken a fault and changed nothing else (rules
R75, R137, R138). -/
theorem exec_cases (i : Instr) (s : State) :
    ∃ t, exec i s = .next t ∧ ((∃ r, r.InRange ∧ t = s.takeFault (encode i) r) ∨ s.Completes t) := by
  cases i
  case cls =>
    exact ⟨_, rfl, .inr ⟨rfl, rfl, rfl, rfl, rfl, rfl, rfl, rfl, rfl, rfl, rfl, fun h => State.advance_wf h, id⟩⟩
  case ret =>
    rcases retRule_cases s with ⟨-, h⟩ | ⟨l, a, hs, h⟩
    · exact ⟨_, rfl, .inl ⟨.stackUnderflow, trivial, by rw [h]; rfl⟩⟩
    · refine ⟨_, rfl, .inr ?_⟩
      rw [h]
      refine ⟨rfl, rfl, rfl, rfl, rfl, rfl, rfl, rfl, rfl, rfl, rfl, fun h => State.setPc_wf h a, fun h => ?_⟩
      show l.length ≤ _
      simp only [State.sp, hs, List.length_append, List.length_cons, List.length_nil] at h
      omega
  case call nnn =>
    rcases callRule_cases nnn s with ⟨-, h⟩ | ⟨hs, h⟩
    · exact ⟨_, rfl, .inl ⟨.stackOverflow, trivial, by rw [h]; rfl⟩⟩
    · refine ⟨_, rfl, .inr ?_⟩
      rw [h]
      refine ⟨rfl, rfl, rfl, rfl, rfl, rfl, rfl, rfl, rfl, rfl, rfl, fun h => State.setPc_wf h _, fun h => ?_⟩
      show (s.stack ++ [s.pc + 2]).length ≤ _
      simp only [State.sp, List.length_append, List.length_cons, List.length_nil] at h hs ⊢
      omega
  case jp => exact ⟨_, rfl, .inr (setPc_completes s _)⟩
  case jpV0 nnn =>
    rcases jpV0Rule_cases nnn s with ⟨ht, h⟩ | ⟨-, h⟩
    · exact ⟨_, rfl, .inl ⟨_, jpV0Target_inRange ht, by rw [h]; rfl⟩⟩
    · exact ⟨_, rfl, .inr (by rw [h]; exact setPc_completes s _)⟩
  case ldB x =>
    rcases ldBRule_cases x s with ⟨-, h⟩ | ⟨hm, h⟩
    · exact ⟨_, rfl, .inl ⟨_, outsideFrom_inRange s, by rw [h]; rfl⟩⟩
    · refine ⟨_, rfl, .inr ?_⟩
      rw [h]
      exact .of_mem rfl fun hw => State.advance_wf (State.setByte_wf (State.setByte_wf (State.setByte_wf hw
        (by omega) _) (by omega) _) (by omega) _)
  case stRegs x =>
    rcases stRegsRule_cases x s with ⟨-, h⟩ | ⟨hm, u, hu, h⟩
    · exact ⟨_, rfl, .inl ⟨_, outsideFrom_inRange s, by rw [h]; rfl⟩⟩
    · refine ⟨_, rfl, .inr ?_⟩
      rw [h]
      obtain ⟨v, hv, he, hw⟩ := storeRegs_ok s.base (x.toNat + 1) 0 s (by omega)
      obtain rfl := Except.ok.inj (hu.symm.trans hv)
      refine .of_mem ?_ fun h => State.advance_wf (hw h)
      rw [settle_ok, (State.advance_writesOnly u).1, he]
  case ldRegs x =>
    rcases ldRegsRule_cases x s with ⟨-, h⟩ | ⟨hm, u, hu, h⟩
    · exact ⟨_, rfl, .inl ⟨_, outsideFrom_inRange s, by rw [h]; rfl⟩⟩
    · refine ⟨_, rfl, .inr ?_⟩
      rw [h]
      obtain ⟨v, hv, he, hw⟩ := loadRegs_ok s.base (x.toNat + 1) 0 s (by omega)
      obtain rfl := Except.ok.inj (hu.symm.trans hv)
      refine .of_mem ?_ fun h => State.advance_wf (hw h)
      rw [settle_ok, (State.advance_writesOnly u).1, he]
  case drw x y n =>
    rcases drwRule_cases x y n s with ⟨-, -, h⟩ | ⟨-, h⟩
    · exact ⟨_, rfl, .inl ⟨_, outsideFrom_inRange s, by rw [h]; rfl⟩⟩
    · refine ⟨_, rfl, .inr ?_⟩
      rw [h]
      exact ⟨rfl, rfl, rfl, rfl, rfl, rfl, rfl, rfl, rfl, rfl, rfl,
        fun h => State.advance_wf (State.setV_wf (s := { s with disp := _ }) h vf _), id⟩
  case ldVxK x =>
    refine ⟨_, rfl, .inr ?_⟩
    split
    · exact ⟨rfl, rfl, rfl, rfl, rfl, rfl, rfl, rfl, rfl, rfl, rfl, id, id⟩
    · exact setV_advance_completes s _ _
  case ldDtVx x => exact ⟨_, rfl, .inr (.of_mem rfl fun h => State.advance_wf (State.setDt_wf h _))⟩
  case ldStVx x => exact ⟨_, rfl, .inr (.of_mem rfl fun h => State.advance_wf (State.setSt_wf h _))⟩
  case seI => exact ⟨_, rfl, .inr (skipIf_completes s _)⟩
  case sneI => exact ⟨_, rfl, .inr (skipIf_completes s _)⟩
  case seR => exact ⟨_, rfl, .inr (skipIf_completes s _)⟩
  case sneR => exact ⟨_, rfl, .inr (skipIf_completes s _)⟩
  case skp => exact ⟨_, rfl, .inr (skipIf_completes s _)⟩
  case sknp => exact ⟨_, rfl, .inr (skipIf_completes s _)⟩
  case addR => exact ⟨_, rfl, .inr (setResultFlag_advance_completes s _ _ _)⟩
  case sub => exact ⟨_, rfl, .inr (setResultFlag_advance_completes s _ _ _)⟩
  case subn => exact ⟨_, rfl, .inr (setResultFlag_advance_completes s _ _ _)⟩
  case shr => exact ⟨_, rfl, .inr (setResultFlag_advance_completes s _ _ _)⟩
  case shl => exact ⟨_, rfl, .inr (setResultFlag_advance_completes s _ _ _)⟩
  case ldIdx => exact ⟨_, rfl, .inr (setRegI_advance_completes s _)⟩
  case addIdx => exact ⟨_, rfl, .inr (setRegI_advance_completes s _)⟩
  case ldF => exact ⟨_, rfl, .inr (setRegI_advance_completes s _)⟩
  all_goals exact ⟨_, rfl, .inr (setV_advance_completes s _ _)⟩

/-! ## What a Step and a step can answer -/

/-- A Step in Running: it halts, or skips an unknown opcode, or runs the decoded instruction (rules R75, R140). -/
theorem coreStep_cases (keys : Word) (rnd : Byte) (s : State) :
    (s.ranOff = true ∧ coreStep keys rnd s = .next { s with run := .halted, haltReason := .ranOffEnd }) ∨
    (s.ranOff = false ∧ ∃ op, decode s.fetch = .unknownOpcode op ∧
      coreStep keys rnd s = .next (((s.sample keys rnd).reportUnknown op).advance).endStep) ∨
    (s.ranOff = false ∧ ∃ i t, decode s.fetch = .instr i ∧ exec i (s.sample keys rnd) = .next t ∧
      coreStep keys rnd s = .next t.endStep) := by
  unfold coreStep
  cases h : s.ranOff
  · cases hd : decode s.fetch with
    | unknownOpcode op => exact .inr (.inl ⟨rfl, op, rfl, rfl⟩)
    | instr i =>
      obtain ⟨t, ht, -⟩ := exec_cases i (s.sample keys rnd)
      exact .inr (.inr ⟨rfl, i, t, rfl, ht, by simp [ht]⟩)
  · exact .inl ⟨rfl, rfl⟩

/-- A step delivers its next event; it never ends in a model fault or a refusal. -/
theorem step_eq_deliver (s : State) : step s = deliver s.nextEvent s.takeEvent := rfl

theorem State.nextEvent_cons {s : State} {e : Event} {es : List Event} (h : s.inbox = e :: es) : s.nextEvent = e := by
  rw [State.nextEvent, h]

theorem deliver_answers (e : Event) (s : State) : ∃ t, deliver e s = .next t := by
  cases e
  case step keys rnd =>
    by_cases hr : s.run = .running
    · have hd : deliver (.step keys rnd) s = coreStep keys rnd s := if_pos hr
      rcases coreStep_cases keys rnd s with ⟨-, h⟩ | ⟨-, _, -, h⟩ | ⟨-, _, _, -, -, h⟩
      all_goals exact ⟨_, hd.trans h⟩
    · exact ⟨s, if_neg hr⟩
  all_goals exact ⟨_, rfl⟩

/-- `k + 1` steps of a machine are one step and then `k`. -/
theorem run_succ_of_step (M : Host.Core) {k : Nat} {s t : M.State} (h : M.step s = .next t) :
    M.run (k + 1) s = M.run k t := by
  rw [Host.Core.run, h]

theorem core_run_succ {k : Nat} {s t : State} (h : step s = .next t) :
    Host.Core.run core (k + 1) s = Host.Core.run core k t := run_succ_of_step core h

end Sys2Proof.Machine
end

