-- ==== Sys2Proof/Tests/Slice0.lean ====
section
/-! SUPPORT. Tests: ill-formed words the WellFormed check refuses, a word of every instruction written out from its
encoding, single steps with the results the spec's own test vectors give (95_test_vectors.md), the host's probe, and a
witness for every statement that has hypotheses. -/

namespace Sys2Proof.Tests

open Sys2Proof.Machine

set_option Elab.async false

/-! ## Well-formed words: one ill-formed word for each check of rule R71 (vectors U-1 to U-8) -/

theorem test_class0_needs_the_whole_word :
    wordWellFormed 0x0000 = false ∧ wordWellFormed 0x0123 = false ∧ wordWellFormed 0x00E1 = false ∧
    wordWellFormed 0x00E0 = true ∧ wordWellFormed 0x00EE = true := by decide

theorem test_class5_and_class9_need_digit_zero :
    wordWellFormed 0x5121 = false ∧ wordWellFormed 0x512F = false ∧ wordWellFormed 0x9121 = false ∧
    wordWellFormed 0x5120 = true ∧ wordWellFormed 0x9120 = true := by decide

theorem test_class8_refuses_digits_8_to_d_and_f :
    wordWellFormed 0x8128 = false ∧ wordWellFormed 0x812D = false ∧ wordWellFormed 0x812F = false ∧
    wordWellFormed 0x812E = true ∧ wordWellFormed 0x8127 = true := by decide

theorem test_class_e_needs_9e_or_a1 :
    wordWellFormed 0xE29F = false ∧ wordWellFormed 0xE2A0 = false ∧ wordWellFormed 0xE29E = true := by decide

theorem test_class_f_needs_a_listed_low_byte :
    wordWellFormed 0xF2FF = false ∧ wordWellFormed 0xF256 = false ∧ wordWellFormed 0xF21F = false ∧
    wordWellFormed 0xF255 = true := by decide

theorem test_opcode_map_has_34_rows : opcodeMap.length = 34 := by decide

/-- Rule R18: the window bytes, the font and the program space are pairwise apart. -/
theorem test_layout_is_disjoint :
    (([vBase + 15, iAddr, iAddr + 1, pcAddr, pcAddr + 1, dtAddr, stAddr, fontBase, fontBase + 80, entry.toNat]).Pairwise
      (· < ·)) ∧ windowEnd = stAddr + 1 := by decide

/-! ## Decoding: each word is written out bit by bit from the encoding column of the opcode table -/

theorem test_decode_flow :
    decode 0b0000000011101110#16 = .instr .ret ∧
    decode 0b0001001000000110#16 = .instr (.jp 0x206) ∧
    decode 0b0010001100000000#16 = .instr (.call 0x300) ∧
    decode 0b1011111100000001#16 = .instr (.jpV0 0xF01) ∧
    decode 0b0011101000010010#16 = .instr (.seI 0xA 0x12) ∧
    decode 0b0100010100010000#16 = .instr (.sneI 5 0x10) ∧
    decode 0b0101101010110000#16 = .instr (.seR 0xA 0xB) ∧
    decode 0b1001000100100000#16 = .instr (.sneR 1 2) := by decide

theorem test_decode_alu :
    decode 0b0110101010011101#16 = .instr (.ldI 0xA 0x9D) ∧
    decode 0b0111000100000011#16 = .instr (.addI 1 3) ∧
    decode 0b1000000100100000#16 = .instr (.ldR 1 2) ∧
    decode 0b1000000100100001#16 = .instr (.orR 1 2) ∧
    decode 0b1000000100100010#16 = .instr (.andR 1 2) ∧
    decode 0b1000000100100011#16 = .instr (.xorR 1 2) ∧
    decode 0b1000001101000100#16 = .instr (.addR 3 4) ∧
    decode 0b1000000100100101#16 = .instr (.sub 1 2) ∧
    decode 0b1000000100100110#16 = .instr (.shr 1 2) ∧
    decode 0b1000111011110111#16 = .instr (.subn 0xE 0xF) ∧
    decode 0b1000000100101110#16 = .instr (.shl 1 2) ∧
    decode 0b1100001100001111#16 = .instr (.rnd 3 0x0F) := by decide

theorem test_decode_memory :
    decode 0b1010001100000000#16 = .instr (.ldIdx 0x300) ∧
    decode 0b1111001000011110#16 = .instr (.addIdx 2) ∧
    decode 0b1111000000101001#16 = .instr (.ldF 0) ∧
    decode 0b1111100100110011#16 = .instr (.ldB 9) ∧
    decode 0b1111001001010101#16 = .instr (.stRegs 2) ∧
    decode 0b1111001001100101#16 = .instr (.ldRegs 2) := by decide

theorem test_decode_display_keypad_timers :
    decode 0b0000000011100000#16 = .instr .cls ∧
    decode 0b1101000000010101#16 = .instr (.drw 0 1 5) ∧
    decode 0b1110001010011110#16 = .instr (.skp 2) ∧
    decode 0b1110000110100001#16 = .instr (.sknp 1) ∧
    decode 0b1111010000000111#16 = .instr (.ldVxDt 4) ∧
    decode 0b1111001100001010#16 = .instr (.ldVxK 3) ∧
    decode 0b1111001100010101#16 = .instr (.ldDtVx 3) ∧
    decode 0b1111001100011000#16 = .instr (.ldStVx 3) := by decide

theorem test_decode_unknown :
    decode 0x0000 = .unknownOpcode 0x0000 ∧ decode 0x812C = .unknownOpcode 0x812C ∧
    decode 0xF285 = .unknownOpcode 0xF285 := by decide

/-! ## Single steps: the start state of 95_test_vectors.md and one Step -/

/-- The vectors' start state: Running, PC = 0x200, and the given bytes in memory. -/
def start (bytes : List (Nat × Byte)) : State :=
  { State.reset with mem := bytes.foldl (fun m p => m.write p.1 p.2) [(0x012, 0x02)], run := .running }

/-- The next state of an outcome. -/
def nextOf : Host.Outcome State Fault Refusal → Option State
  | .next t => some t
  | _ => none

/-- The state after a Step that finds the word at PC; the reset state if there were none. -/
def after (w : Word) (s : State) : State := (nextOf (step (s.withWord w))).getD State.reset

/-- The state an event leaves. -/
def delivered (e : Event) (s : State) : State := (nextOf (deliver e s)).getD State.reset

/-- A display with one pixel on. -/
def onePixel (x y : Nat) : Display := Display.blank.toggle x y

/-! ### Control flow (vectors F) -/

theorem test_ret_pops : -- F-7
    let t := after 0x00EE { start [] with stack := [0x0202, 0x0456] }
    t.stack = [0x0202] ∧ t.pc = 0x0456 := by decide +kernel

theorem test_ret_on_empty_stack : -- S4
    let t := after 0x00EE (start [])
    t.run = .faulted ∧ t.cause = .stackUnderflow ∧ t.faultPc = 0x0200 ∧ t.faultOpcode = 0x00EE ∧ t.pc = 0x0200 := by
  decide +kernel

theorem test_jp : (after 0x1ABC (start [])).pc = 0x0ABC := by decide +kernel -- F-1

theorem test_call_at_the_top : -- F-5
    let t := after 0x2300 (start [(0x012, 0x0F), (0x013, 0xFE)])
    t.stack = [0x1000] ∧ t.pc = 0x0300 := by decide +kernel

theorem test_call_on_full_stack : -- S3
    let t := after 0x2300 { start [] with stack := List.replicate 16 0x0202 }
    t.run = .faulted ∧ t.cause.code = 1 ∧ t.faultPc = 0x0200 ∧ t.faultOpcode = 0x2300 ∧ t.faultAddr = 0 ∧
    t.sp = 16 ∧ t.pc = 0x0200 := by decide +kernel

theorem test_jp_v0_last_address : (after 0xBF00 (start [(0, 0xFF)])).pc = 0x0FFF := by decide +kernel -- F-9

theorem test_jp_v0_out_of_range : -- F-10
    let t := after 0xBFFF (start [(0, 0x01)])
    t.cause.code = 3 ∧ t.faultOpcode = 0xBFFF ∧ t.faultAddr = 0x1000 ∧ t.pc = 0x0200 := by decide +kernel

theorem test_se_i : -- F-12, F-13
    (after 0x3A12 (start [(0xA, 0x12)])).pc = 0x0204 ∧ (after 0x3A12 (start [(0xA, 0x13)])).pc = 0x0202 := by
  decide +kernel

theorem test_sne_i : -- F-14, F-15
    (after 0x4A12 (start [(0xA, 0x12)])).pc = 0x0202 ∧ (after 0x4A12 (start [(0xA, 0x13)])).pc = 0x0204 := by
  decide +kernel

theorem test_se_r : -- F-16, F-17
    (after 0x5AB0 (start [(0xA, 7), (0xB, 7)])).pc = 0x0204 ∧ (after 0x5AB0 (start [(0xA, 7), (0xB, 8)])).pc = 0x0202 := by
  decide +kernel

theorem test_sne_r : -- F-19, F-20
    (after 0x9AB0 (start [(0xA, 7), (0xB, 7)])).pc = 0x0202 ∧ (after 0x9AB0 (start [(0xA, 7), (0xB, 8)])).pc = 0x0204 := by
  decide +kernel

/-! ### Arithmetic and logic (vectors A) -/

theorem test_ld_i_into_vf : (after 0x6F7B (start [])).v 0xF = 0x7B := by decide +kernel -- A-1

theorem test_add_i_leaves_vf : -- A-3
    let t := after 0x75FF (start [(5, 0x05), (0xF, 0x01)])
    t.v 5 = 0x04 ∧ t.v 0xF = 0x01 := by decide +kernel

theorem test_ld_r : (after 0x8120 (start [(1, 0x01), (2, 0x33)])).v 1 = 0x33 := by decide +kernel -- A-5

theorem test_or : -- A-6
    let t := after 0x8121 (start [(1, 0xF0), (2, 0x0F), (0xF, 1)])
    t.v 1 = 0xFF ∧ t.v 0xF = 1 := by decide +kernel

theorem test_and : -- A-7
    let t := after 0x8122 (start [(1, 0xF3), (2, 0x3F), (0xF, 1)])
    t.v 1 = 0x33 ∧ t.v 0xF = 1 := by decide +kernel

theorem test_xor : -- A-8
    let t := after 0x8123 (start [(1, 0xFF), (2, 0x0F), (0xF, 1)])
    t.v 1 = 0xF0 ∧ t.v 0xF = 1 := by decide +kernel

theorem test_add_r_carry : -- A-10
    let t := after 0x8124 (start [(1, 0xFF), (2, 0x01)])
    t.v 1 = 0 ∧ t.v 0xF = 1 := by decide +kernel

theorem test_add_r_into_vf : (after 0x8F24 (start [(0xF, 0x10), (2, 0x20)])).v 0xF = 0 := by decide +kernel -- A-14

theorem test_sub_equal_is_no_borrow : -- A-19
    let t := after 0x8125 (start [(1, 5), (2, 5)])
    t.v 1 = 0 ∧ t.v 0xF = 1 := by decide +kernel

theorem test_sub_with_vf_as_subtrahend : -- A-22
    let t := after 0x81F5 (start [(1, 5), (0xF, 6)])
    t.v 1 = 0xFF ∧ t.v 0xF = 0 := by decide +kernel

theorem test_subn_borrow : -- A-24
    let t := after 0x8127 (start [(1, 5), (2, 3), (0xF, 1)])
    t.v 1 = 0xFE ∧ t.v 0xF = 0 := by decide +kernel

theorem test_shr_ignores_y : -- A-27
    let t := after 0x8126 (start [(1, 0x80), (2, 0xFF), (0xF, 1)])
    t.v 1 = 0x40 ∧ t.v 2 = 0xFF ∧ t.v 0xF = 0 := by decide +kernel

theorem test_shr_of_vf : (after 0x8F06 (start [(0xF, 0x02)])).v 0xF = 0 := by decide +kernel -- A-30

theorem test_shl : -- A-31
    let t := after 0x810E (start [(1, 0x81)])
    t.v 1 = 0x02 ∧ t.v 0xF = 1 := by decide +kernel

theorem test_shl_of_vf : (after 0x8F0E (start [(0xF, 0x7F)])).v 0xF = 0 := by decide +kernel -- A-34

theorem test_rnd : (after 0xC30F { start [] with rnd := 0xA7 }).v 3 = 0x07 := by decide +kernel -- A-35

/-! ### Index register and memory (vectors M, W) -/

theorem test_ld_idx : (after 0xAFFF (start [])).regI = 0x0FFF := by decide +kernel -- M-1

theorem test_add_idx_wraps : (after 0xF21E (start [(0x10, 0xFF), (0x11, 0xFF), (2, 1)])).regI = 0 := by decide +kernel -- M-4

theorem test_add_idx_above_memory : -- M-3
    let t := after 0xF21E (start [(0x10, 0x0F), (0x11, 0xFF), (2, 1)])
    t.regI = 0x1000 ∧ t.run = .running := by decide +kernel

theorem test_ld_f_low_four_bits : (after 0xF029 (start [(0, 0x1A)])).regI = 0x0082 := by decide +kernel -- M-8

theorem test_ld_b_at_the_last_place : -- M-14
    let t := after 0xF333 (start [(0x10, 0x0F), (0x11, 0xFD), (3, 255)])
    t.byte 0xFFD = 2 ∧ t.byte 0xFFE = 5 ∧ t.byte 0xFFF = 5 := by decide +kernel

theorem test_ld_b_onto_i : -- W-9
    let t := after 0xF333 (start [(0x11, 0x0E), (3, 254)])
    t.v 0xE = 2 ∧ t.v 0xF = 5 ∧ t.regI = 0x040E := by decide +kernel

theorem test_st_regs_smears : -- W-1
    let t := after 0xF255 (start [(0x11, 1), (0, 0xA0), (1, 0xB1), (2, 0xC2), (3, 0xD3), (4, 0xE4)])
    t.v 1 = 0xA0 ∧ t.v 2 = 0xA0 ∧ t.v 3 = 0xA0 ∧ t.v 4 = 0xE4 := by decide +kernel

theorem test_st_regs_onto_pc : -- W-7
    (after 0xF155 (start [(0x11, 0x12), (0, 0xFF), (1, 0xFF)])).pc = 0x0001 := by decide +kernel

theorem test_ld_regs_overlapping : -- W-2
    let t := after 0xF165 (start [(0x11, 1), (0, 0xA0), (1, 0xB1), (2, 0xC2)])
    t.v 0 = 0xB1 ∧ t.v 1 = 0xC2 ∧ t.v 2 = 0xC2 := by decide +kernel

theorem test_ld_regs_out_of_range : -- M-24
    let t := after 0xF165 (start [(0x10, 0x0F), (0x11, 0xFF), (0xFFF, 0x5A)])
    t.cause.code = 3 ∧ t.faultAddr = 0x1000 ∧ t.v 0 = 0 := by decide +kernel

/-! ### Display (vectors G) -/

theorem test_cls : -- G-1
    let t := after 0x00E0 { start [(0xF, 1)] with disp := onePixel 63 31 }
    t.disp = Display.blank ∧ t.v 0xF = 1 ∧ t.out.displayChanged = true := by decide +kernel

theorem test_drw_start_wraps_and_clips : -- G-3, G-2
    (let t := after 0xD011 (start [(0, 66), (1, 33), (0x10, 3), (0x300, 0xC0)])
     t.pixel 2 1 = true ∧ t.pixel 3 1 = true ∧ t.pixel 1 1 = false ∧ t.pixel 4 1 = false ∧ t.v 0xF = 0) ∧
    (let t := after 0xD011 (start [(0, 62), (0x10, 3), (0x300, 0xFF)])
     t.pixel 62 0 = true ∧ t.pixel 63 0 = true ∧ t.pixel 0 0 = false) := by decide +kernel

theorem test_drw_collides : -- G-5
    let t := after 0xD011 { start [(0x10, 3), (0x300, 0xC0)] with disp := onePixel 1 0 }
    t.pixel 0 0 = true ∧ t.pixel 1 0 = false ∧ t.v 0xF = 1 := by decide +kernel

/-! ### Keypad and timers (vectors K) -/

theorem test_skp : -- K-3, K-2
    (after 0xE29E { start [(2, 0x13)] with keys := 0x0008 }).pc = 0x0204 ∧
    (after 0xE29E { start [(2, 0x03)] with keys := 0xFFF7 }).pc = 0x0202 := by decide +kernel

theorem test_sknp : -- K-6, K-5
    (after 0xE2A1 { start [(2, 0x0F)] with keys := 0x8000 }).pc = 0x0202 ∧
    (after 0xE2A1 { start [(2, 0x03)] with keys := 0x0000 }).pc = 0x0204 := by decide +kernel

theorem test_ld_vx_k_lowest_new_key : -- K-10
    let t := after 0xF50A { start [] with kprev := 0x0010, keys := 0x0214 }
    t.v 5 = 2 ∧ t.pc = 0x0202 ∧ t.kprev = 0x0214 := by decide +kernel

theorem test_ld_vx_k_held_key_waits : -- K-8
    let t := after 0xF50A { start [(5, 0x77)] with kprev := 0x0010, keys := 0x0010 }
    t.v 5 = 0x77 ∧ t.pc = 0x0200 ∧ t.out.waiting = true := by decide +kernel

theorem test_ld_vx_dt : (after 0xF307 (start [(0x14, 0x2A)])).v 3 = 0x2A := by decide +kernel -- K-13

theorem test_ld_dt_vx : -- K-14
    let t := after 0xF315 (start [(3, 0x3C)])
    t.dt = 0x3C ∧ t.st = 0 := by decide +kernel

theorem test_ld_st_vx : -- K-15
    let t := after 0xF318 (start [(3, 0x3C)])
    t.st = 0x3C ∧ t.dt = 0 ∧ t.soundActive = true := by decide +kernel

/-! ### Events (vectors U, H, T, L) -/

theorem test_unknown_is_reported : -- U-1
    let t := after 0x0000 { start [(1, 1), (0xF, 9)] with keys := 0x0004 }
    t.out.unknown = some (0x0000, 0x0200) ∧ t.pc = 0x0202 ∧ t.v 0xF = 9 ∧ t.run = .running ∧ t.kprev = 0x0004 := by
  decide +kernel

theorem test_pc_past_the_end_halts : -- H-4
    let s := start [(0x012, 0x0F), (0x013, 0xFF)]
    delivered (.step 0x0001 0) s = { s with run := .halted, haltReason := .ranOffEnd } := by decide +kernel

theorem test_tick : -- T-3, T-4
    let t := delivered .tick (start [(0x14, 0xFF), (0x15, 0x02)])
    let s := { start [(0x14, 5)] with run := .loaded }
    t.dt = 0xFE ∧ t.st = 0x01 ∧ delivered .tick s = s := by decide +kernel

theorem test_load : -- L-3
    let t := delivered (.load (Vector.replicate 80 0xF0) [0x12, 0x00]) State.reset
    t.run = .loaded ∧ t.pc = 0x0200 ∧ t.byte 0x200 = 0x12 ∧ t.byte 0x050 = 0xF0 ∧ t.byte 0x09F = 0xF0 := by
  decide +kernel

theorem test_load_too_large : -- L-2
    delivered (.load (Vector.replicate 80 0xF0) (List.replicate 3585 1)) State.reset =
      { State.reset with cause := .programTooLarge } := by decide +kernel

/-! ## The host's probe -/

theorem test_table_word : decodeTableWord 16 0x6A9D = some (.ldI 0xA 0x9D) ∧ decodeTableWord 16 0x0000 = none := by decide

/-- From State.reset the probe makes the very next step run the word. -/
theorem test_probe_from_reset :
    let t := (nextOf (step (State.reset.withFetchWord 16 0x6A9D))).getD State.reset
    t.v 0xA = 0x9D ∧ t.pc = 0x0202 ∧ t.run = .running := by decide +kernel

/-- In a Running state the probe leaves PC where it is. -/
theorem test_probe_while_running :
    (start [(0x012, 0x03), (0x013, 0x33)]).placeAt = 0x0333 ∧
    (after 0x6A9D (start [(0x012, 0x03), (0x013, 0x33)])).pc = 0x0335 := by decide +kernel

/-! ## Witnesses: for every statement with hypotheses, states and operands that meet them all, each clause at a boundary
of its range -/

/-- A state with the given events due. -/
def due (es : List Event) (s : State) : State := { s with inbox := es }

/-- A state with `n` stack entries. -/
def depth (n : Nat) : State := { start [] with stack := List.replicate n 0x0202 }

/-- A state with I = `w`. -/
def indexed (w : Word) : State := start [(0x010, Word.hi w), (0x011, Word.lo w)]

/-- What `exec` answers. -/
def execOf (i : Instr) (s : State) : State := (nextOf (exec i s)).getD State.reset

theorem witness_EncodeOfDecodeIsTheWord : decode 0x8126 = .instr (.shr 1 2) := by decide

theorem witness_WordDecodesIffItMatchesARow :
    decode 0x5AB0 = .instr (.seR 0xA 0xB) ∧ (Instr.sneR 0 0).row.accepts 0x9FF0 = true ∧
    wordWellFormed 0x8127 = true ∧ wordWellFormed 0x8128 = false := by decide

theorem witness_ResetEventActsInEveryState :
    (due [.reset] { start [] with run := .faulted }).nextEvent = .reset := by decide

theorem witness_LoadPlacesFontAndProgram :
    State.reset.run = .reset ∧ (List.replicate 3584 (0x01 : Byte)).length ≤ 3584 ∧ ([] : List Byte).length ≤ 3584 :=
  ⟨rfl, by rw [List.length_replicate], by decide⟩

theorem witness_LoadTooLargeOnlySetsCause :
    State.reset.run = .reset ∧ 3584 < (List.replicate 3585 (0x01 : Byte)).length ∧
    (List.replicate 3584 (0x01 : Byte)).length ≤ 3584 :=
  ⟨rfl, by rw [List.length_replicate]; decide, by rw [List.length_replicate]⟩

theorem witness_FirstInstructionState :
    ([0x12, 0x00] : List Byte).length ≤ 3584 ∧
    (due [.reset, .load (Vector.replicate 80 0) [0x12, 0x00], .run] State.reset).inbox =
      .reset :: .load (Vector.replicate 80 0) [0x12, 0x00] :: .run :: [] := ⟨by decide, rfl⟩

theorem witness_RunAndHaltReqMoveTheRunState :
    ({ State.reset with run := .loaded }).run = .loaded ∧ (start []).run = .running := ⟨rfl, rfl⟩

theorem witness_EventsWithoutARowHaveNoEffect :
    (start []).run ≠ .reset ∧ (start []).run ≠ .loaded ∧ ({ State.reset with run := .loaded }).run ≠ .running := by decide

/-- Each of the six rows of the table that changes RUN. -/
theorem witness_RunStateChangesOnlyByTheTable :
    nextOf (step (due [.reset] (start []))) = some { State.reset with eventNo := 1 } ∧
    ((nextOf (step (due [.load (Vector.replicate 80 0) []] State.reset))).map (·.run)) = some .loaded ∧
    ((nextOf (step (due [.run] { State.reset with run := .loaded }))).map (·.run)) = some .running ∧
    ((nextOf (step (due [.haltReq] (start [])))).map (·.run)) = some .halted ∧
    ((nextOf (step (due [.step 0 0] (start [(0x012, 0x0F), (0x013, 0xFF)])))).map (·.run)) = some .halted ∧
    ((nextOf (step (due [.step 0 0] (start [(0x201, 0xEE)])))).map (·.run)) = some .faulted := by decide +kernel

theorem witness_HaltedAndFaultedAreTerminal :
    (due [.tick] { start [] with run := .halted }).run = .halted ∧
    (due [.tick] { start [] with run := .halted }).nextEvent ≠ .reset ∧
    (due [.run] { start [] with run := .faulted }).run = .faulted ∧
    (due [.run] { start [] with run := .faulted }).nextEvent ≠ .reset := by decide

theorem witness_TickCountsDownBothTimers : (start [(0x14, 1)]).run = .running ∧ (start [(0x14, 1)]).st = 0 := by decide

theorem witness_TimersReachZeroAfterTheirCountOfTicks :
    (due (List.replicate 12 .tick ++ [.haltReq]) (start [(0x14, 10)])).run = .running ∧
    (due (List.replicate 12 .tick ++ [.haltReq]) (start [(0x14, 10)])).inbox =
      List.replicate 12 .tick ++ [.haltReq] := ⟨rfl, rfl⟩

theorem witness_EveryStepKeepsTheInvariant :
    (due [.step 0 0] (start [])).Inv ∧
    nextOf (step (due [.step 0 0] (start []))) ≠ none := by decide +kernel

theorem witness_StepRunsTheDecodedInstruction :
    let s := due [.step 0x0020 0x5C] (start [(0x012, 0x0F), (0x013, 0xFE), (0xFFE, 0x60), (0xFFF, 0x12)])
    s.nextEvent = .step 0x0020 0x5C ∧ s.run = .running ∧ s.pc.toNat ≤ 0xFFE ∧
    decodeBytes [s.byte s.pc.toNat, s.byte (s.pc.toNat + 1)] = some (.instr (.ldI 0 0x12), []) := by decide +kernel

theorem witness_UnknownOpcodeIsReportedAndSkipped :
    let s := due [.step 0x0001 0] (start [])
    s.nextEvent = .step 0x0001 0 ∧ s.run = .running ∧ s.pc.toNat ≤ 0xFFE ∧ wordWellFormed s.fetch = false := by
  decide +kernel

theorem witness_PcPastTheEndHalts :
    let s := due [.step 0 0] (start [(0x012, 0x0F), (0x013, 0xFF)])
    s.nextEvent = .step 0 0 ∧ s.run = .running ∧ 0xFFE < s.pc.toNat := by decide +kernel

theorem witness_InstructionFaultsExactlyWhenTheTableSays :
    (start []).run = .running ∧ nextOf (exec .ret (start [])) = some (execOf .ret (start [])) ∧
    nextOf (exec .ret (depth 1)) = some (execOf .ret (depth 1)) := by decide +kernel

theorem witness_FaultsArePrecise :
    (start []).run = .running ∧ nextOf (exec .ret (start [])) = some (execOf .ret (start [])) ∧
    (execOf .ret (start [])).run = .faulted := by decide +kernel

theorem witness_StackAndDisplayHaveTheirOwnInstructions :
    nextOf (exec (.ldI 0 1) (depth 3)) = some (execOf (.ldI 0 1) (depth 3)) ∧ Instr.ldI 0 1 ≠ .ret ∧
    Instr.ldI 0 1 ≠ .cls ∧ (∀ nnn, Instr.ldI 0 1 ≠ .call nnn) ∧ (∀ x y n, Instr.ldI 0 1 ≠ .drw x y n) :=
  ⟨by decide +kernel, by decide, by decide, fun _ h => Instr.noConfusion h, fun _ _ _ h => Instr.noConfusion h⟩

theorem witness_RandomByteReachesRndAlone :
    (∀ x nn, Instr.ldR 0 1 ≠ .rnd x nn) ∧ nextOf (exec (.ldR 0 1) (start [])) = some (execOf (.ldR 0 1) (start [])) :=
  ⟨fun _ _ h => Instr.noConfusion h, by decide +kernel⟩

theorem witness_KeysReachTheKeyInstructionsAlone :
    (∀ x, Instr.ldR 0 1 ≠ .ldVxK x) ∧ (∀ x, Instr.ldR 0 1 ≠ .skp x) ∧ (∀ x, Instr.ldR 0 1 ≠ .sknp x) ∧
    nextOf (exec (.ldR 0 1) (start [])) = some (execOf (.ldR 0 1) (start [])) :=
  ⟨fun _ h => Instr.noConfusion h, fun _ h => Instr.noConfusion h, fun _ h => Instr.noConfusion h, by decide +kernel⟩

theorem witness_CheckedReadAndWrite :
    (start []).memRead 0x1000 = .error (.addressOutOfRange 0x1000) ∧
    (start [(0xFFF, 0x5A)]).memRead 0xFFF = .ok 0x5A ∧ 0xFFF < 0x1000 ∧ 0xFFF ≤ 0xFFF := ⟨rfl, rfl, by decide, by decide⟩

theorem witness_StoreIsSeenByTheNextFetch : 0x200 ∉ pcBytes ∧ 0x201 ∉ pcBytes ∧ (start []).pc.toNat = 0x200 := by decide

theorem witness_StackContract : (depth 16).sp = 16 ∧ (depth 15).sp ≠ 16 ∧ (depth 0).sp = 0 ∧ (depth 1).sp ≠ 0 := by decide

theorem witness_ReturnGoesBackBehindTheCall :
    (depth 15).sp < 16 ∧ nextOf (exec (.call 0x300) (depth 15)) = some (execOf (.call 0x300) (depth 15)) ∧
    (execOf (.call 0x300) (depth 15)).stack = (execOf (.call 0x300) (depth 15)).stack := by decide +kernel

theorem witness_RetPopsOrUnderflows : (depth 16).stack = List.replicate 15 0x0202 ++ [0x0202] ∧ (depth 0).sp = 0 := by decide

theorem witness_CallPushesAndJumps : (depth 15).sp ≠ 16 := by decide

theorem witness_CallOnAFullStackOverflows : (depth 16).sp = 16 := by decide

theorem witness_JpV0JumpsOrFaults :
    (0xF00 : Addr12).toNat + ((start [(0, 0xFF)]).v 0).toNat ≤ 0xFFF ∧
    0xFFF < (0xFFF : Addr12).toNat + ((start [(0, 0x01)]).v 0).toNat := by decide

theorem witness_FlagIsZeroOrOne :
    Instr.drw 0 1 15 ∈ [.addR 0 1, .sub 0 1, .shr 0 1, .subn 0 1, .shl 0 1, .drw 0 1 15] ∧
    nextOf (exec (.drw 0 1 15) (indexed 0xFF1)) = some (execOf (.drw 0 1 15) (indexed 0xFF1)) ∧
    ¬ faultsIn (.drw 0 1 15) (indexed 0xFF1) ∧ ¬ faultsIn (.addR 0 1) (indexed 0xFF1) :=
  ⟨by decide, by decide +kernel, by unfold faultsIn; decide +kernel, fun h => h⟩

theorem witness_BcdStoresThreeDigits : (indexed 0xFFD).regI.toNat + 2 ≤ 0xFFF := by decide +kernel

theorem witness_StoreRegistersAscending : (indexed 0xFF0).regI.toNat + (0xF : Reg).toNat ≤ 0xFFF := by decide +kernel

theorem witness_LoadRegistersAscending : (indexed 0xFF0).regI.toNat + (0xF : Reg).toNat ≤ 0xFFF := by decide +kernel

theorem witness_RangeOutsideMemoryFaults :
    0 < (2 : Count).toNat ∧ 0xFFF < (indexed 0xFFF).regI.toNat + (2 : Count).toNat - 1 ∧
    0xFFF < (indexed 0xFFE).regI.toNat + 2 ∧ 0xFFF < (indexed 0xFF1).regI.toNat + (0xF : Reg).toNat := by decide +kernel

theorem witness_DrwTogglesTheSprite :
    (0 : Count).toNat = 0 ∧ (indexed 0xFFF).regI.toNat + (1 : Count).toNat - 1 ≤ 0xFFF := by decide +kernel

theorem witness_DrawingTwiceRestoresTheDisplay :
    (0 : Reg) ≠ vf ∧ (1 : Reg) ≠ vf ∧ 0x016 ≤ (indexed 0x016).regI.toNat ∧
    (indexed 0x016).regI.toNat + (5 : Count).toNat - 1 ≤ 0xFFF ∧
    nextOf (exec (.drw 0 1 5) (indexed 0x016)) = some (execOf (.drw 0 1 5) (indexed 0x016)) := by decide +kernel

theorem witness_KeyWaitHoldsOrStoresTheLowestNewKey :
    (∀ k, k < 16 → (0x0010 : Word).getLsbD k = true → (0x0010 : Word).getLsbD k = true) ∧
    (15 < 16 ∧ (0x8000 : Word).getLsbD 15 = true ∧ (0x0000 : Word).getLsbD 15 = false ∧
      ∀ j, j < 15 → (0x8000 : Word).getLsbD j = true → (0x0000 : Word).getLsbD j = true) :=
  ⟨fun _ _ h => h, by decide⟩

theorem witness_KeyWaitStepChangesKprevAlone :
    let s := due [.step 0x0010 0] { start [(0x200, 0xF5), (0x201, 0x0A)] with kprev := 0x0010 }
    s.nextEvent = .step 0x0010 0 ∧ s.run = .running ∧ s.pc.toNat ≤ 0xFFE ∧ decode s.fetch = .instr (.ldVxK 5) ∧
    (0x0010 : Word) &&& ~~~s.kprev = 0 := by decide +kernel

end Sys2Proof.Tests
end

section
/-! The statements about memory (20_memory.md). -/

namespace Sys2Proof.Machine

/-- Settles O27: the check of rules R44 and R45 decides between the error and the plain read or write, and the write is
one `setByte`, whose frame is its own address. -/
theorem checkedReadAndWrite : Obligations.CheckedReadAndWrite := by
  intro s a v
  constructor
  · intro outside
    exact ⟨s.memRead_error outside, s.memWrite_error outside v⟩
  · intro inside
    have written : (s.setByte a v).byte a = v := by rw [State.setByte_byte, if_pos rfl]
    exact ⟨s.memRead_ok inside, s.setByte a v, s.memWrite_ok inside v, written, s.setByte_writesOnly a v⟩

end Sys2Proof.Machine
end

section
/-! The statements about control transfer (40_flow.md), and call and return together (S5). -/

namespace Sys2Proof.Machine

/-! ## What each instruction answers, case by case -/

/-- A raised error makes the fault entry of its own kind and address, with PC still at the instruction (rules R137,
R138). -/
theorem State.takeFault_faultEntry (s : State) (i : Instr) {r : Raise} {a : Nat}
    (address : r.faultAddr = BitVec.ofNat 16 a) : s.FaultEntry (s.takeFault (encode i) r) i r.cause a := by
  rw [State.FaultEntry, ← address]
  rfl

/-- A jump to NNN puts its value in PC unchanged. -/
theorem State.setPc_zext16_pc (s : State) (nnn : Addr12) : (s.setPc (zext16 nnn)).pc.toNat = nnn.toNat := by
  rw [State.setPc_pc, zext16_toNat]

theorem exec_ret_of_newest (s : State) {l : List Word} {a : Word} (newest : s.stack = l ++ [a]) :
    exec .ret s = .next ({ s with stack := l }.setPc a) := by
  have ends : retRule s = .ok ({ s with stack := l }.setPc a) := by rw [retRule, s.pop_ok newest]; rfl
  rw [exec, execRet, ends, settle_ok]

theorem exec_ret_of_empty (s : State) (empty : s.sp = 0) :
    exec .ret s = .next (s.takeFault (encode .ret) .stackUnderflow) := by
  have ends : retRule s = .error .stackUnderflow := by
    rw [retRule, s.pop_empty (List.length_eq_zero_iff.mp empty)]; rfl
  rw [exec, execRet, ends, settle_error]

theorem exec_call_of_room (s : State) (nnn : Addr12) (room : s.sp ≠ Config.stackCap) :
    exec (.call nnn) s = .next ({ s with stack := s.stack ++ [s.pc + 2] }.setPc (zext16 nnn)) := by
  rcases callRule_cases nnn s with ⟨full, -⟩ | ⟨-, ends⟩
  · exact absurd full room
  · rw [exec, execCall, ends, settle_ok]

theorem exec_jpV0_of_inside (s : State) (nnn : Addr12) (inside : jpV0Target nnn s ≤ lastAddr) :
    exec (.jpV0 nnn) s = .next (s.setPc (BitVec.ofNat 16 (jpV0Target nnn s))) := by
  rcases jpV0Rule_cases nnn s with ⟨outside, -⟩ | ⟨-, ends⟩
  · omega
  · rw [exec, execJpV0, ends, settle_ok]

theorem exec_jpV0_of_outside (s : State) (nnn : Addr12) (outside : lastAddr < jpV0Target nnn s) :
    exec (.jpV0 nnn) s = .next (s.takeFault (encode (.jpV0 nnn)) (.addressOutOfRange (jpV0Target nnn s))) := by
  rcases jpV0Rule_cases nnn s with ⟨-, ends⟩ | ⟨inside, -⟩
  · rw [exec, execJpV0, ends, settle_error]
  · omega

/-- A skip whose test decides `p` moves PC by 4 or by 2 as `p` says, and writes PC alone (rule R78). -/
theorem State.skipIf_of_iff (s : State) {taken : Bool} {p : Prop} [Decidable p] (decides : taken = true ↔ p) :
    (s.skipIf taken).pc = (if p then s.pc + 4 else s.pc + 2) ∧ s.WritesOnly (s.skipIf taken) pcBytes := by
  refine ⟨?_, s.skipIf_writesOnly taken⟩
  rw [State.skipIf_pc]
  exact if_congr decides rfl rfl

/-! ## The statements -/

/-- Settles O32: the entry RET pops goes to PC by one `setPc` on the state without it; with no entry the pop raises
StackUnderflow and the state is that of fault entry. -/
theorem retPopsOrUnderflows : Obligations.RetPopsOrUnderflows := by
  intro s
  constructor
  · intro l a newest
    exact ⟨_, exec_ret_of_newest s newest, State.setPc_pc _ a, State.setPc_writesOnly _ a⟩
  · intro empty
    exact ⟨_, exec_ret_of_empty s empty, s.takeFault_faultEntry .ret rfl⟩

/-- Settles O33: JP is one write of PC, and extending NNN to 16 bits keeps its value. -/
theorem jpSetsPc : Obligations.JpSetsPc := by
  intro s nnn
  exact ⟨_, rfl, s.setPc_zext16_pc nnn, s.setPc_writesOnly _⟩

/-- Settles O34: with room the push succeeds, and PC is written on the state with the longer stack. -/
theorem callPushesAndJumps : Obligations.CallPushesAndJumps := by
  intro s nnn room
  exact ⟨_, exec_call_of_room s nnn room, State.setPc_zext16_pc _ nnn, rfl, State.setPc_writesOnly _ _⟩

/-- Settles O31: by O34 the call leaves its return address as the newest entry, and by O32 the return takes that entry
into PC and leaves the stack below it. -/
theorem returnGoesBackBehindTheCall : Obligations.ReturnGoesBackBehindTheCall := by
  intro s t u nnn room called sameStack
  obtain ⟨t', called', -, pushed, -⟩ := callPushesAndJumps s nnn (by omega)
  obtain rfl : t = t' := Host.Outcome.next.inj (called.symm.trans called')
  obtain ⟨ofNewest, -⟩ := retPopsOrUnderflows u
  obtain ⟨r, returned, atCaller, frame, -⟩ := ofNewest s.stack (s.pc + 2) (sameStack.trans pushed)
  have popped : r.stack = s.stack := by rw [frame]
  exact ⟨r, returned, atCaller, popped⟩

/-- Settles O36: the target decides between the jump and the fault, and a target up to 0xFFF fits PC's 16 bits. -/
theorem jpV0JumpsOrFaults : Obligations.JpV0JumpsOrFaults := by
  intro s nnn
  constructor
  · intro inside
    have target : (s.setPc (BitVec.ofNat 16 (jpV0Target nnn s))).pc.toNat = nnn.toNat + (s.v 0).toNat := by
      rw [State.setPc_pc, BitVec.toNat_ofNat, jpV0Target, Nat.mod_eq_of_lt (by omega)]
    exact ⟨_, exec_jpV0_of_inside s nnn inside, target, s.setPc_writesOnly _⟩
  · intro outside
    exact ⟨_, exec_jpV0_of_outside s nnn outside, s.takeFault_faultEntry (.jpV0 nnn) rfl⟩

/-- Settles O37: each skip is `skipIf` on a test of bytes, `==` or `!=`, that decides its condition. -/
theorem registerSkips : Obligations.RegisterSkips := by
  intro s x y nn
  refine ⟨?seI, ?sneI, ?seR, ?sneR⟩
  case seI => exact ⟨_, rfl, s.skipIf_of_iff beq_iff_eq⟩
  case sneI => exact ⟨_, rfl, s.skipIf_of_iff bne_iff_ne⟩
  case seR => exact ⟨_, rfl, s.skipIf_of_iff beq_iff_eq⟩
  case sneR => exact ⟨_, rfl, s.skipIf_of_iff bne_iff_ne⟩

end Sys2Proof.Machine
end

section
/-! The statements about arithmetic and logic (41_alu.md). -/

namespace Sys2Proof.Machine

/-! ## The two shapes of an ALU instruction -/

/-- A result written to VX, then the PC update (rules R78, R80). -/
theorem State.setV_advance_spec (s : State) (x : Reg) (r : Byte) :
    (s.setV x r).advance.v x = r ∧ (s.setV x r).advance.pc = s.pc + 2 ∧
      s.WritesOnly (s.setV x r).advance (vAddr x :: pcBytes) := by
  refine ⟨?value, ?pc, s.setV_advance_writesOnly x r⟩
  case value => rw [State.advance_v, State.setV_v, if_pos rfl]
  case pc => rw [State.advance_pc, State.setV_pc]

/-- A result written to VX, the flag to VF after it, then the PC update: the flag always stands, the result unless X = F
(rules R12, R79, R80). -/
theorem State.setResultFlag_advance_spec (s : State) (x : Reg) (r f : Byte) :
    (x ≠ vf → (s.setResultFlag x r f).advance.v x = r) ∧ (s.setResultFlag x r f).advance.v vf = f ∧
      (s.setResultFlag x r f).advance.pc = s.pc + 2 ∧
      s.WritesOnly (s.setResultFlag x r f).advance (vAddr x :: vAddr vf :: pcBytes) := by
  refine ⟨?result, ?flag, ?pc, s.setResultFlag_advance_writesOnly x r f⟩
  case result => intro notF; rw [State.advance_v, State.setResultFlag_v, if_neg notF, if_pos rfl]
  case flag => rw [State.advance_v, State.setResultFlag_v, if_pos rfl]
  case pc => rw [State.advance_pc, State.setResultFlag_pc]

/-! ## Results and flags as numbers -/

theorem flagByte_decide (p : Prop) [Decidable p] : flagByte (decide p) = if p then 1 else 0 := by
  rw [flagByte]
  exact if_congr decide_eq_true_iff rfl rfl

theorem flagByte_toNat (b : Bool) : (flagByte b).toNat = b.toNat := by cases b <;> rfl

theorem shiftedOutRight_toNat (a : Byte) : (shiftedOutRight a).toNat = a.toNat % 2 := by
  rw [shiftedOutRight, flagByte_toNat, BitVec.getLsbD, Nat.toNat_testBit, pow_zero, Nat.div_one]

/-- Bit 7 is the whole quotient by 128, a byte being below 256. -/
theorem shiftedOutLeft_toNat (a : Byte) : (shiftedOutLeft a).toNat = a.toNat / 128 := by
  have below := a.isLt
  rw [shiftedOutLeft, flagByte_toNat, BitVec.getLsbD, Nat.toNat_testBit]
  omega

/-- The difference of two bytes is that of their values modulo 256, on the integers, where it may be negative. -/
theorem toNat_sub_eq_emod (a b : Byte) : ((a - b).toNat : Int) = (a.toNat - b.toNat : Int) % 256 := by
  have below := b.isLt
  rw [BitVec.toNat_sub]
  omega

/-- What a subtraction of `b` from `a` leaves, whichever of them is VX (rules R102, R104, R107). -/
theorem State.setDifference_advance_spec (s : State) (x : Reg) (a b : Byte) :
    (x ≠ vf → (((s.setResultFlag x (a - b) (noBorrow a b)).advance.v x).toNat : Int) =
        (a.toNat - b.toNat : Int) % 256) ∧
      (s.setResultFlag x (a - b) (noBorrow a b)).advance.v vf = (if a.toNat ≥ b.toNat then 1 else 0) ∧
      (s.setResultFlag x (a - b) (noBorrow a b)).advance.pc = s.pc + 2 ∧
      s.WritesOnly (s.setResultFlag x (a - b) (noBorrow a b)).advance (vAddr x :: vAddr vf :: pcBytes) := by
  obtain ⟨result, flag, pcAndFrame⟩ := s.setResultFlag_advance_spec x (a - b) (noBorrow a b)
  refine ⟨?difference, ?borrow, pcAndFrame⟩
  case difference => intro notF; rw [result notF, toNat_sub_eq_emod]
  case borrow => rw [flag, noBorrow, flagByte_decide]

/-! ## The statements -/

/-- Settles O38: each writes one value to VX and advances, and `+` on bytes is the sum modulo 256. -/
theorem loadsAndAddImmediate : Obligations.LoadsAndAddImmediate := by
  intro s x y nn
  refine ⟨?ldI, ?addI, ?ldR⟩
  case ldI => exact ⟨_, rfl, s.setV_advance_spec x nn⟩
  case addI =>
    obtain ⟨value, pcAndFrame⟩ := s.setV_advance_spec x (s.v x + nn)
    exact ⟨_, rfl, by rw [value, BitVec.toNat_add], pcAndFrame⟩
  case ldR => exact ⟨_, rfl, s.setV_advance_spec x (s.v y)⟩

/-- Settles O39: each writes one value to VX, and the bits of that value are the operation on the operands' bits. -/
theorem logicOperations : Obligations.LogicOperations := by
  intro s x y
  refine ⟨?orR, ?andR, ?xorR⟩
  case orR =>
    obtain ⟨value, pcAndFrame⟩ := s.setV_advance_spec x (s.v x ||| s.v y)
    exact ⟨_, rfl, fun i => by rw [value, BitVec.getLsbD_or], pcAndFrame⟩
  case andR =>
    obtain ⟨value, pcAndFrame⟩ := s.setV_advance_spec x (s.v x &&& s.v y)
    exact ⟨_, rfl, fun i => by rw [value, BitVec.getLsbD_and], pcAndFrame⟩
  case xorR =>
    obtain ⟨value, pcAndFrame⟩ := s.setV_advance_spec x (s.v x ^^^ s.v y)
    exact ⟨_, rfl, fun i => by rw [value, BitVec.getLsbD_xor], pcAndFrame⟩

/-- Settles O40: the sum goes to VX and the carry to VF after it, both of the old VX and VY. -/
theorem addWithCarryOut : Obligations.AddWithCarryOut := by
  intro s x y
  obtain ⟨result, flag, pcAndFrame⟩ :=
    s.setResultFlag_advance_spec x (s.v x + s.v y) (carryOut (s.v x) (s.v y))
  refine ⟨_, rfl, ?sum, ?carry, pcAndFrame⟩
  case sum => intro notF; rw [result notF, BitVec.toNat_add]
  case carry => rw [flag, carryOut, flagByte_decide]

/-- Settles O41: SUB and SUBN are one subtraction with its operands exchanged. -/
theorem subtractsWithNoBorrowFlag : Obligations.SubtractsWithNoBorrowFlag := by
  intro s x y
  exact ⟨⟨_, rfl, s.setDifference_advance_spec x (s.v x) (s.v y)⟩,
    ⟨_, rfl, s.setDifference_advance_spec x (s.v y) (s.v x)⟩⟩

/-- Settles O42: a shift by one halves or doubles the value, and the bit it drops is the remainder by 2 or the quotient
by 128. -/
theorem shiftsInPlace : Obligations.ShiftsInPlace := by
  intro s x y
  constructor
  · obtain ⟨result, flag, pcAndFrame⟩ :=
      s.setResultFlag_advance_spec x (s.v x >>> 1) (shiftedOutRight (s.v x))
    refine ⟨_, rfl, ?half, ?bit0, pcAndFrame⟩
    case half => intro notF; rw [result notF, BitVec.toNat_ushiftRight, Nat.shiftRight_one]
    case bit0 => rw [flag, shiftedOutRight_toNat]
  · obtain ⟨result, flag, pcAndFrame⟩ :=
      s.setResultFlag_advance_spec x (s.v x <<< 1) (shiftedOutLeft (s.v x))
    refine ⟨_, rfl, ?double, ?bit7, pcAndFrame⟩
    case double => intro notF; rw [result notF, BitVec.toNat_shiftLeft, Nat.shiftLeft_eq, pow_one]
    case bit7 => rw [flag, shiftedOutLeft_toNat]

/-- Settles O43: RND writes the masked random byte of the Step to VX and advances. -/
theorem rndMasksTheRandomByte : Obligations.RndMasksTheRandomByte := by
  intro s x nn
  exact ⟨_, rfl, s.setV_advance_spec x (s.rnd &&& nn)⟩

end Sys2Proof.Machine
end

section
/-! The statements about the index register and memory (42_index_memory.md). -/

namespace Sys2Proof.Machine

/-! ## Writing I (rules R110 to R112) -/

/-- A value written to I, then the PC update: the shape of LD_IDX, ADD_IDX and LD_F (rules R78, R80). -/
theorem State.setRegI_advance_spec (s : State) (w : Word) :
    (s.setRegI w).advance.regI = w ∧ (s.setRegI w).advance.pc = s.pc + 2 ∧
      s.WritesOnly (s.setRegI w).advance (iBytes ++ pcBytes) := by
  refine ⟨?value, ?pc, s.setRegI_advance_writesOnly w⟩
  case value => rw [State.advance_regI, State.setRegI_regI]
  case pc => rw [State.advance_pc, State.setRegI_pc]

/-- The glyph addresses fit I: the last is 0x050 + 5 * 15. -/
theorem glyphAddr_toNat (v : Byte) : (glyphAddr v).toNat = 0x050 + 5 * (v.toNat % 16) := by
  rw [glyphAddr, BitVec.toNat_ofNat, lowNibble_eq_mod, fontBase, glyphBytes]
  omega

/-! ## Ranges inside memory (rules R40, R46) -/

/-- A range that ends at or below the highest address lies in memory. -/
theorem add_succ_le_memSize {a k : Nat} (inside : a + k ≤ lastAddr) : a + (k + 1) ≤ Config.memSize :=
  Nat.succ_le_succ inside

/-! ## The decimal digits (rule R113) -/

theorem hundreds_toNat (v : Byte) : (hundreds v).toNat = v.toNat / 100 := by
  have below := v.isLt
  rw [hundreds, BitVec.toNat_ofNat]
  omega

theorem tens_toNat (v : Byte) : (tens v).toNat = v.toNat / 10 % 10 := by
  rw [tens, BitVec.toNat_ofNat]
  omega

theorem ones_toNat (v : Byte) : (ones v).toNat = v.toNat % 10 := by
  rw [ones, BitVec.toNat_ofNat]
  omega

/-- LD_B before its PC update: the three digits of VX stored at I, I+1 and I+2 in that order (rules R43, R113). -/
def State.storeDigits (s : State) (x : Reg) : State :=
  ((s.setByte s.base (hundreds (s.v x))).setByte (s.base + 1) (tens (s.v x))).setByte (s.base + 2) (ones (s.v x))

theorem State.storeDigits_writesOnly (s : State) (x : Reg) :
    s.WritesOnly (s.storeDigits x) [s.base, s.base + 1, s.base + 2] :=
  ((s.setByte_writesOnly _ _).trans (State.setByte_writesOnly _ _ _)).trans (State.setByte_writesOnly _ _ _)

/-- The three addresses are distinct, so no digit is lost to a later one. -/
theorem State.storeDigits_byte (s : State) (x : Reg) :
    (s.storeDigits x).byte s.base = hundreds (s.v x) ∧ (s.storeDigits x).byte (s.base + 1) = tens (s.v x) ∧
      (s.storeDigits x).byte (s.base + 2) = ones (s.v x) := by
  simp [State.storeDigits]

theorem exec_ldB_of_inside (s : State) (x : Reg) (inside : s.base + 2 ≤ lastAddr) :
    exec (.ldB x) s = .next (s.storeDigits x).advance := by
  rcases ldBRule_cases x s with ⟨outside, -⟩ | ⟨-, ends⟩
  · exact absurd (add_succ_le_memSize inside) (Nat.not_le.mpr outside)
  · rw [exec, execLdB, ends, settle_ok, State.storeDigits]

/-! ## The registers as the bytes 0x000 to 0x00F (rule R17) -/

theorem vAddr_ofNat {i : Nat} (small : i < 16) : vAddr (BitVec.ofNat 4 i) = i := by
  rw [vAddr, vBase, BitVec.toNat_ofNat, Nat.mod_eq_of_lt small, Nat.zero_add]

theorem State.v_ofNat (s : State) {i : Nat} (small : i < 16) : s.v (BitVec.ofNat 4 i) = s.byte i := by
  rw [State.v, vAddr_ofNat small]

theorem State.v_eq_byte_toNat (s : State) (x : Reg) : s.v x = s.byte x.toNat := by
  rw [State.v, vAddr, vBase, Nat.zero_add]

/-! ## The copy loop of ST_REGS (rule R114, decision D31) -/

/-- `s` is `s₀` after the loop has copied the registers below `i` to memory from `a` on. Where the range overlaps the
registers the loop reads back what it stored `a` turns before, so the copy repeats with period `a`. -/
def State.StoredTo (s₀ : State) (a i : Nat) (s : State) : Prop :=
  ∀ b, s.byte b = if a ≤ b ∧ b < a + i then s₀.v (BitVec.ofNat 4 ((b - a) % a)) else s₀.byte b

theorem State.StoredTo.start (s : State) (a : Nat) : s.StoredTo a 0 s := by
  intro b
  rw [if_neg (by omega)]

/-- Register `i` at its own moment: not yet reached by the copy when `i < a` or `a = 0`, and else the byte the loop stored
at turn `i - a`. -/
theorem State.StoredTo.v_eq {s₀ s : State} {a i : Nat} (stored : s₀.StoredTo a i s) (small : i < 16) :
    s.v (BitVec.ofNat 4 i) = s₀.v (BitVec.ofNat 4 (i % a)) := by
  rw [s.v_ofNat small, stored i]
  by_cases reached : a ≤ i ∧ i < a + i
  · rw [if_pos reached, ← Nat.mod_eq_sub_mod reached.left]
  · have same : i % a = i := by
      rcases Nat.eq_zero_or_pos a with rfl | positive
      · exact Nat.mod_zero i
      · exact Nat.mod_eq_of_lt (by omega)
    rw [if_neg reached, same, s₀.v_ofNat small]

theorem State.StoredTo.next {s₀ s : State} {a i : Nat} (stored : s₀.StoredTo a i s) (small : i < 16) :
    s₀.StoredTo a (i + 1) (s.setByte (a + i) (s.v (BitVec.ofNat 4 i))) := by
  intro b
  rw [State.setByte_byte, stored.v_eq small]
  by_cases here : b = a + i
  · rw [if_pos here, if_pos (by omega), here, Nat.add_sub_cancel_left]
  · rw [if_neg here, stored b]
    exact if_congr (by omega) rfl rfl

/-- The loop carries the copy from register `i` to register `i + n`. -/
theorem storeRegs_storedTo {s₀ s t : State} {a n i : Nat} (registers : i + n ≤ 16)
    (inside : a + i + n ≤ Config.memSize) (stored : s₀.StoredTo a i s) (ends : storeRegs a n i s = .ok t) :
    s₀.StoredTo a (i + n) t := by
  induction n generalizing i s with
  | zero =>
    obtain rfl : s = t := Except.ok.inj ends
    exact stored
  | succ n ih =>
    have written := s.memWrite_ok (a := a + i) (Nat.le_of_lt_succ (by omega : a + i < Config.memSize))
    rw [storeRegs, written] at ends
    rw [← Nat.succ_add_eq_add_succ]
    exact ih (by omega) (by omega) (stored.next (by omega)) ends

theorem exec_stRegs_of_inside (s : State) (x : Reg) (inside : s.base + x.toNat ≤ lastAddr) :
    ∃ u, storeRegs s.base (x.toNat + 1) 0 s = .ok u ∧ exec (.stRegs x) s = .next u.advance := by
  rcases stRegsRule_cases x s with ⟨outside, -⟩ | ⟨-, u, loop, ends⟩
  · exact absurd (add_succ_le_memSize inside) (Nat.not_le.mpr outside)
  · exact ⟨u, loop, by rw [exec, execStRegs, ends, settle_ok]⟩

/-! ## The copy loop of LD_REGS (rule R115, decision D31) -/

/-- `s` is `s₀` after the loop has loaded the registers below `i` from memory at `a` on. -/
def State.LoadedTo (s₀ : State) (a i : Nat) (s : State) : Prop :=
  ∀ b, s.byte b = if b < i then s₀.byte (a + b) else s₀.byte b

theorem State.LoadedTo.start (s : State) (a : Nat) : s.LoadedTo a 0 s := by
  intro b
  rw [if_neg (Nat.not_lt_zero b)]

/-- Nothing at or above register `i` has changed yet. -/
theorem State.LoadedTo.byte_eq {s₀ s : State} {a i b : Nat} (loaded : s₀.LoadedTo a i s) (above : i ≤ b) :
    s.byte b = s₀.byte b := by
  rw [loaded b, if_neg (Nat.not_lt.mpr above)]

theorem State.LoadedTo.word_eq {s₀ s : State} {a i b : Nat} (loaded : s₀.LoadedTo a i s) (above : i ≤ b) :
    s.word b = s₀.word b := by
  rw [State.word, State.word, loaded.byte_eq above, loaded.byte_eq (Nat.le_succ_of_le above)]

/-- The byte loaded at turn `i` is at `a + i`, at or above register `i`, so no earlier turn has changed it. -/
theorem State.LoadedTo.next {s₀ s : State} {a i : Nat} (loaded : s₀.LoadedTo a i s) (small : i < 16) :
    s₀.LoadedTo a (i + 1) (s.setV (BitVec.ofNat 4 i) (s.byte (a + i))) := by
  intro b
  rw [State.setV_byte, vAddr_ofNat small, loaded.byte_eq (Nat.le_add_left i a)]
  by_cases here : b = i
  · rw [if_pos here, if_pos (by omega), here]
  · rw [if_neg here, loaded b]
    exact if_congr (by omega) rfl rfl

/-- The loop carries the copy from register `i` to register `i + n`. -/
theorem loadRegs_loadedTo {s₀ s t : State} {a n i : Nat} (registers : i + n ≤ 16)
    (inside : a + i + n ≤ Config.memSize) (loaded : s₀.LoadedTo a i s) (ends : loadRegs a n i s = .ok t) :
    s₀.LoadedTo a (i + n) t := by
  induction n generalizing i s with
  | zero =>
    obtain rfl : s = t := Except.ok.inj ends
    exact loaded
  | succ n ih =>
    have read := s.memRead_ok (a := a + i) (Nat.le_of_lt_succ (by omega : a + i < Config.memSize))
    rw [loadRegs, read] at ends
    rw [← Nat.succ_add_eq_add_succ]
    exact ih (by omega) (by omega) (loaded.next (by omega)) ends

theorem exec_ldRegs_of_inside (s : State) (x : Reg) (inside : s.base + x.toNat ≤ lastAddr) :
    ∃ u, loadRegs s.base (x.toNat + 1) 0 s = .ok u ∧ exec (.ldRegs x) s = .next u.advance := by
  rcases ldRegsRule_cases x s with ⟨outside, -⟩ | ⟨-, u, loop, ends⟩
  · exact absurd (add_succ_le_memSize inside) (Nat.not_le.mpr outside)
  · exact ⟨u, loop, by rw [exec, execLdRegs, ends, settle_ok]⟩

/-! ## The statements -/

/-- Settles O45: LD_IDX is one write of I and the PC update, and extending NNN to 16 bits keeps its value. -/
theorem ldIdxSetsI : Obligations.LdIdxSetsI := by
  intro s nnn
  obtain ⟨value, pcAndFrame⟩ := s.setRegI_advance_spec (zext16 nnn)
  exact ⟨_, rfl, by rw [value, zext16_toNat], pcAndFrame⟩

/-- Settles O46: both are one write of I and the PC update; `+` on words is the sum modulo 65536, and the glyph address is
computed from VX's low digit. -/
theorem addIdxAndLdFSetI : Obligations.AddIdxAndLdFSetI := by
  intro s x
  constructor
  · obtain ⟨value, pcAndFrame⟩ := s.setRegI_advance_spec (s.regI + (s.v x).setWidth 16)
    refine ⟨_, rfl, ?_, pcAndFrame⟩
    rw [value, BitVec.toNat_add, BitVec.toNat_setWidth_of_le (by omega)]
  · obtain ⟨value, pcAndFrame⟩ := s.setRegI_advance_spec (glyphAddr (s.v x))
    exact ⟨_, rfl, by rw [value, glyphAddr_toNat], pcAndFrame⟩

/-- Settles O47: the three stores write the digits of the old VX at distinct addresses, and PC advances on the state they
leave. -/
theorem bcdStoresThreeDigits : Obligations.BcdStoresThreeDigits := by
  intro s x inside
  obtain ⟨hundredsAt, tensAt, onesAt⟩ := s.storeDigits_byte x
  refine ⟨s.storeDigits x, _, exec_ldB_of_inside s x inside, s.storeDigits_writesOnly x, ?hundreds, ?tens, ?ones,
    State.advance_pc _, State.advance_writesOnly _⟩
  case hundreds => exact hundredsAt ▸ hundreds_toNat (s.v x)
  case tens => exact tensAt ▸ tens_toNat (s.v x)
  case ones => exact onesAt ▸ ones_toNat (s.v x)

/-- Settles O48: after all X + 1 turns of the loop the byte at I + i is the old V[i mod I], and PC advances on the state the
stores leave. -/
theorem storeRegistersAscending : Obligations.StoreRegistersAscending := by
  intro s x inside
  obtain ⟨u, loop, ends⟩ := exec_stRegs_of_inside s x inside
  have stored : s.StoredTo s.base (0 + (x.toNat + 1)) u :=
    storeRegs_storedTo (by omega) (add_succ_le_memSize inside) (State.StoredTo.start s s.base) loop
  refine ⟨u, _, ends, storeRegs_writesOnly loop, ?bytes, State.advance_pc u, State.advance_writesOnly u⟩
  case bytes =>
    intro i upToX
    rw [stored (s.regI.toNat + i), State.base, if_pos (by omega), Nat.add_sub_cancel_left]

/-- Settles O49: after all X + 1 turns of the loop each register holds the byte that stood at its address before, and the
bytes of I and PC, which lie above the registers, are as they were. -/
theorem loadRegistersAscending : Obligations.LoadRegistersAscending := by
  intro s x inside
  obtain ⟨u, loop, ends⟩ := exec_ldRegs_of_inside s x inside
  have loaded : s.LoadedTo s.base (0 + (x.toNat + 1)) u :=
    loadRegs_loadedTo (by omega) (add_succ_le_memSize inside) (State.LoadedTo.start s s.base) loop
  have frame : s.WritesOnly u ((List.range (x.toNat + 1)).map (vAddr 0 + ·)) :=
    loadRegs_writesOnly (i := 0) (by omega) loop
  have belowI : 0 + (x.toNat + 1) ≤ iAddr := by rw [iAddr]; omega
  refine ⟨_, ends, ?registers, ?pc, ?index, frame.trans (State.advance_writesOnly u)⟩
  case registers =>
    intro i upToX
    rw [State.advance_v, State.v_eq_byte_toNat, loaded i.toNat, if_pos (by omega), State.base]
  case pc => rw [State.advance_pc, State.pc, State.pc, loaded.word_eq (belowI.trans (by decide))]
  case index => rw [State.advance_regI, State.regI, State.regI, loaded.word_eq belowI]

end Sys2Proof.Machine
end

section
/-! The statements about the display (43_display.md), and drawing twice (S6). -/

namespace Sys2Proof.Machine

/-! ## A new screen, the part CLS and DRW share (rules R118, R119) -/

theorem Display.blank_pixel (px py : Nat) : Display.blank.pixel px py = false := by
  rw [Display.pixel, Vector.getElem?_replicate]
  split
  · exact BitVec.getLsbD_zero
  · exact BitVec.getLsbD_zero

/-- The state with the display `d` in place of its own and `display_changed` raised (decision D29). -/
def State.redraw (s : State) (d : Display) : State := { s with disp := d }.markDisplay

theorem State.redraw_pc (s : State) (d : Display) : (s.redraw d).pc = s.pc := State.pc_congr rfl

theorem exec_cls (s : State) : exec .cls s = .next (s.redraw Display.blank).advance := rfl

/-- With its range in memory DRW puts the drawn display in place, then the collision in VF, then advances PC. -/
theorem exec_drw_of_inside (s : State) (x y : Reg) (n : Count)
    (inside : n.toNat = 0 ∨ s.regI.toNat + n.toNat - 1 ≤ lastAddr) :
    exec (.drw x y n) s =
      .next ((s.redraw (drawnBy x y n s).1).setV vf (flagByte (drawnBy x y n s).2)).advance := by
  rcases drwRule_cases x y n s with ⟨positive, outside, -⟩ | ⟨-, ends⟩
  · rw [State.base, Config.memSize] at outside
    rw [lastAddr] at inside
    omega
  · rw [exec, execDrw, ends, settle_ok]
    rfl

/-! ## What DRW leaves of the sprite (rule R80) -/

/-- A state has the same sprite when it agrees on the coordinates, on I and on the bytes from I up. -/
theorem State.spriteBit_congr {s t : State} {x y : Reg} (n : Count) (column : t.v x = s.v x) (row : t.v y = s.v y)
    (index : t.regI = s.regI) (sprite : ∀ a, s.regI.toNat ≤ a → t.byte a = s.byte a) (px py : Nat) :
    t.spriteBit x y n px py = s.spriteBit x y n px py := by
  simp only [State.spriteBit, column, row, index, sprite _ (Nat.le_add_right _ _)]

/-- The frame of DRW on the bytes of `s`: outside VF and PC the new display and the outputs leave them alone. -/
theorem State.byte_of_redrawn {s t : State} {d : Display} {o : StepOutput}
    (frame : State.WritesOnly { s with disp := d, out := o } t (vAddr vf :: pcBytes)) {a : Nat}
    (elsewhere : a ∉ vAddr vf :: pcBytes) : t.byte a = s.byte a := by
  obtain ⟨-, bytes⟩ := frame
  rw [bytes a elsewhere]
  exact State.byte_congr rfl a

theorem vAddr_not_mem_vf_pcBytes {x : Reg} (notF : x ≠ vf) : vAddr x ∉ vAddr vf :: pcBytes := by
  have notHigh : vAddr x ≠ pcAddr := vAddr_ne x (by decide)
  have notLow : vAddr x ≠ pcAddr + 1 := vAddr_ne x (by decide)
  simp [pcBytes, vAddr_inj, notF, notHigh, notLow]

theorem not_mem_vf_pcBytes_of_windowEnd_le {a : Nat} (above : windowEnd ≤ a) : a ∉ vAddr vf :: pcBytes := by
  have belowI := vAddr_lt vf
  simp only [windowEnd, iAddr] at above belowI
  simp only [pcBytes, pcAddr, List.mem_cons, List.not_mem_nil, or_false]
  omega

/-! ## The statements -/

/-- Settles O51: CLS is the PC update on the redrawn state, whose display is blank. -/
theorem clsClearsTheDisplay : Obligations.ClsClearsTheDisplay := by
  intro s
  refine ⟨_, exec_cls s, Display.blank_pixel, ?pc, rfl, State.advance_writesOnly _⟩
  case pc => rw [State.advance_pc, State.redraw_pc]

/-- Settles O52: the pixels and the collision are those of the drawn rows, the flag byte is 0 or 1, and VF and PC are
written on the redrawn state. -/
theorem drwTogglesTheSprite : Obligations.DrwTogglesTheSprite := by
  intro s x y n inside
  obtain ⟨pixels, collision⟩ := drawnBy_spec x y n s
  obtain ⟨flag, pc, frame⟩ :=
    (s.redraw (drawnBy x y n s).1).setV_advance_spec vf (flagByte (drawnBy x y n s).2)
  refine ⟨_, exec_drw_of_inside s x y n inside, pixels, ?zeroOrOne, ?collides, ?pc, rfl, frame⟩
  case zeroOrOne => rw [flag]; exact flagByte_cases _
  case collides => rw [flag, flagByte_eq_one, collision]
  case pc => rw [pc, State.redraw_pc]

/-- Settles O53: the first draw leaves the sprite as it was, so the second toggles the same pixels back, and meets as 1
each pixel the first turned on. -/
theorem drawingTwiceRestoresTheDisplay : Obligations.DrawingTwiceRestoresTheDisplay := by
  intro s t x y n xNotF yNotF aboveWindow inside drawn
  obtain ⟨t', drawn', first, -, -, -, -, frame⟩ := drwTogglesTheSprite s x y n inside
  obtain rfl : t = t' := Host.Outcome.next.inj (drawn.symm.trans drawn')
  have index : t.regI = s.regI := by
    rw [State.regI, State.regI, State.word, State.word, State.byte_of_redrawn frame (by decide),
      State.byte_of_redrawn frame (by decide)]
  have sameSprite : ∀ px py, t.spriteBit x y n px py = s.spriteBit x y n px py :=
    State.spriteBit_congr n (State.byte_of_redrawn frame (vAddr_not_mem_vf_pcBytes xNotF))
      (State.byte_of_redrawn frame (vAddr_not_mem_vf_pcBytes yNotF)) index
      fun a fromI => State.byte_of_redrawn frame (not_mem_vf_pcBytes_of_windowEnd_le (aboveWindow.trans fromI))
  obtain ⟨u, redrawn, second, -, collides, -⟩ := drwTogglesTheSprite t x y n (index ▸ inside)
  refine ⟨u, redrawn, Display.ext_pixel ?restored, ?hit⟩
  case restored =>
    intro px py
    calc u.pixel px py = (t.pixel px py ^^ t.spriteBit x y n px py) := second px py
      _ = ((s.pixel px py ^^ s.spriteBit x y n px py) ^^ s.spriteBit x y n px py) := by rw [first, sameSprite]
      _ = s.pixel px py := by rw [Bool.xor_assoc, Bool.xor_self, Bool.xor_false]
  case hit =>
    rintro ⟨px, py, bit, off⟩
    have on : t.pixel px py = true := by rw [first, bit, off]; rfl
    exact collides.mpr ⟨px, py, (sameSprite px py).trans bit, on⟩

end Sys2Proof.Machine
end

section
/-! The statements about keypad and timers (44_keypad_timers.md). -/

namespace Sys2Proof.Machine

/-! ## Keys (rules R124 to R126) -/

theorem State.keyDown_eq_getLsbD (s : State) (v : Byte) : s.keyDown v = s.keys.getLsbD (v.toNat % 16) := by
  rw [State.keyDown, lowNibble_eq_mod]

/-- A key is new when it is down now and was up at the previous Step (decision D20). -/
theorem State.newKeys_getLsbD (s : State) {k : Nat} (isKey : k < 16) :
    s.newKeys.getLsbD k = (s.keys.getLsbD k && !s.kprev.getLsbD k) := by
  rw [State.newKeys, BitVec.getLsbD_and, BitVec.getLsbD_not, decide_eq_true isKey, Bool.true_and]

/-- A key down now that was down at the previous Step is not new. -/
theorem State.newKeys_getLsbD_eq_false {s : State} {k : Nat} (isKey : k < 16)
    (held : s.keys.getLsbD k = true → s.kprev.getLsbD k = true) : s.newKeys.getLsbD k = false := by
  rw [s.newKeys_getLsbD isKey]
  cases down : s.keys.getLsbD k with
  | false => rfl
  | true => rw [held down]; rfl

theorem State.newKeys_eq_zero {s : State}
    (held : ∀ k, k < 16 → s.keys.getLsbD k = true → s.kprev.getLsbD k = true) : s.newKeys = 0 := by
  apply BitVec.eq_of_getLsbD_eq
  intro k isKey
  rw [State.newKeys_getLsbD_eq_false isKey (held k isKey)]
  exact BitVec.getLsbD_zero.symm

theorem exec_ldVxK_of_noNewKey {s : State} (x : Reg) (noNewKey : s.newKeys = 0) :
    exec (.ldVxK x) s = .next s.markWaiting := by
  rw [exec, execLdVxK, if_pos noNewKey]

theorem exec_ldVxK_of_lowestNewKey {s : State} (x : Reg) {k : Nat} (isKey : k < 16)
    (new : s.newKeys.getLsbD k = true) (lowest : ∀ j, j < k → s.newKeys.getLsbD j = false) :
    exec (.ldVxK x) s = .next (s.setV x (BitVec.ofNat 8 k)).advance := by
  have someNewKey : s.newKeys ≠ 0 := by
    intro noNewKey
    rw [noNewKey] at new
    exact Bool.false_ne_true (BitVec.getLsbD_zero.symm.trans new)
  rw [exec, execLdVxK, if_neg someNewKey, lowestKey_eq isKey new lowest]

/-! ## A Step that runs an instruction (rule R75) -/

/-- A Step in Running with PC in range ends as its instruction does, with KPREV set unless it faulted. -/
theorem step_of_running_instr {s t : State} {keys : Word} {rnd : Byte} {i : Instr}
    (due : s.nextEvent = .step keys rnd) (running : s.run = .running) (inRange : s.pc.toNat ≤ lastFetch)
    (fetched : decode s.fetch = .instr i) (executed : exec i (s.takeEvent.sample keys rnd) = .next t) :
    step s = .next t.endStep := by
  have notOff : s.takeEvent.ranOff = false := by
    rw [State.ranOff, State.takeEvent_pc]
    exact decide_eq_false (Nat.not_lt.mpr inRange)
  have sameFetch : s.takeEvent.fetch = s.fetch := rfl
  have delivered : step s = coreStep keys rnd s.takeEvent := by
    rw [step_eq_deliver, due]
    exact if_pos running
  rw [delivered, coreStep, notOff, sameFetch, fetched]
  simp only [Bool.false_eq_true, if_false, executed]

/-! ## The timers (rules R127 to R129, R150, R154) -/

theorem countDown_toNat (v : Byte) : (countDown v).toNat = v.toNat - 1 := by
  rw [countDown]
  split
  case isTrue zero => rw [zero]; rfl
  case isFalse nonzero =>
    have positive : v.toNat ≠ 0 := fun isZero => nonzero (BitVec.eq_of_toNat_eq isZero)
    have one : (1 : Byte).toNat = 1 := rfl
    rw [BitVec.toNat_sub, one]
    omega

/-- In Running a Tick takes one off each timer that is not 0 and writes the two timers alone. -/
theorem deliver_tick_of_running {s : State} (running : s.run = .running) :
    ∃ u, deliver .tick s = .next u ∧ u.dt.toNat = s.dt.toNat - 1 ∧ u.st.toNat = s.st.toNat - 1 ∧
      u.run = .running ∧ s.WritesOnly u [dtAddr, stAddr] := by
  have ticked : tickEvent s = (s.setDt (countDown s.dt)).setSt (countDown s.st) := by
    rw [tickEvent, if_pos running]
  refine ⟨_, congrArg Host.Outcome.next ticked, ?delay, ?sound, running,
    (s.setDt_writesOnly _).trans (State.setSt_writesOnly _ _)⟩
  case delay => rw [State.setSt_dt, State.setDt_dt, countDown_toNat]
  case sound => rw [State.setSt_st, countDown_toNat]

/-- A value written to DT, then the PC update (rules R78, R128). -/
theorem State.setDt_advance_spec (s : State) (v : Byte) :
    (s.setDt v).advance.dt = v ∧ (s.setDt v).advance.pc = s.pc + 2 ∧
      s.WritesOnly (s.setDt v).advance (dtAddr :: pcBytes) := by
  refine ⟨?value, ?pc, (s.setDt_writesOnly v).trans (State.advance_writesOnly _)⟩
  case value => rw [State.advance_dt, State.setDt_dt]
  case pc => rw [State.advance_pc, State.setDt_pc]

/-- A value written to ST, then the PC update (rules R78, R129). -/
theorem State.setSt_advance_spec (s : State) (v : Byte) :
    (s.setSt v).advance.st = v ∧ (s.setSt v).advance.pc = s.pc + 2 ∧
      s.WritesOnly (s.setSt v).advance (stAddr :: pcBytes) := by
  refine ⟨?value, ?pc, (s.setSt_writesOnly v).trans (State.advance_writesOnly _)⟩
  case value => rw [State.advance_st, State.setSt_st]
  case pc => rw [State.advance_pc, State.setSt_pc]

/-! ## The statements -/

/-- Settles O54: each is `skipIf` on the key's level, which SKNP negates. -/
theorem keySkips : Obligations.KeySkips := by
  intro s x
  refine ⟨⟨_, rfl, s.skipIf_of_iff ?down⟩, ⟨_, rfl, s.skipIf_of_iff ?up⟩⟩
  case down => rw [State.keyDown_eq_getLsbD]
  case up => rw [State.keyDown_eq_getLsbD, Bool.not_eq_true']

/-- Settles O55: with no key new the word of new keys is 0 and the instruction only raises `waiting`; else the lowest bit
of that word is the key stored, and it fits VX. -/
theorem keyWaitHoldsOrStoresTheLowestNewKey : Obligations.KeyWaitHoldsOrStoresTheLowestNewKey := by
  intro s x
  constructor
  · intro held
    exact ⟨_, exec_ldVxK_of_noNewKey x (State.newKeys_eq_zero held), rfl, s.markWaiting_pc⟩
  · intro k isKey down wasUp lowest
    have new : s.newKeys.getLsbD k = true := by rw [s.newKeys_getLsbD isKey, down, wasUp]; rfl
    have noneLower : ∀ j, j < k → s.newKeys.getLsbD j = false := fun j lower =>
      State.newKeys_getLsbD_eq_false (lower.trans isKey) (lowest j lower)
    obtain ⟨value, pcAndFrame⟩ := s.setV_advance_spec x (BitVec.ofNat 8 k)
    refine ⟨_, exec_ldVxK_of_lowestNewKey x isKey new noneLower, ?_, pcAndFrame⟩
    rw [value, BitVec.toNat_ofNat, Nat.mod_eq_of_lt (by omega)]

/-- Settles O56: the instruction raises `waiting` on the sampled state, the Step's end sets KPREV, and the machine is still
Running when the Tick comes. -/
theorem keyWaitStepChangesKprevAlone : Obligations.KeyWaitStepChangesKprevAlone := by
  intro s x keys rnd due running inRange fetched noNewKey
  have waits := exec_ldVxK_of_noNewKey (s := s.takeEvent.sample keys rnd) x noNewKey
  have stepped := step_of_running_instr due running inRange fetched waits
  have notFaulted : (s.takeEvent.sample keys rnd).markWaiting.run ≠ .faulted := by
    show s.run ≠ .faulted
    rw [running]
    decide
  rw [State.endStep, if_neg notFaulted] at stepped
  exact ⟨_, stepped, rfl, State.pc_congr rfl, deliver_tick_of_running running⟩

/-- Settles O57: each writes one byte, VX, DT or ST, and advances. -/
theorem timerReadsAndWrites : Obligations.TimerReadsAndWrites := by
  intro s x
  refine ⟨?readDelay, ?setDelay, ?setSound⟩
  case readDelay =>
    obtain ⟨value, pcAndFrame⟩ := s.setV_advance_spec x s.dt
    exact ⟨_, rfl, value, by rw [State.advance_dt, State.setV_dt], pcAndFrame⟩
  case setDelay => exact ⟨_, rfl, s.setDt_advance_spec (s.v x)⟩
  case setSound =>
    obtain ⟨value, pcAndFrame⟩ := s.setSt_advance_spec (s.v x)
    refine ⟨_, rfl, value, ?_, pcAndFrame⟩
    rw [State.soundActive, value, Bool.eq_iff_iff, bne_iff_ne, decide_eq_true_iff]

end Sys2Proof.Machine
end

section
/-! The statements about exceptions (60_exceptions.md). -/

namespace Sys2Proof.Machine

theorem exec_call_of_full (s : State) (nnn : Addr12) (full : s.sp = Config.stackCap) :
    exec (.call nnn) s = .next (s.takeFault (encode (.call nnn)) .stackOverflow) := by
  rcases callRule_cases nnn s with ⟨-, ends⟩ | ⟨room, -⟩
  · rw [exec, execCall, ends, settle_error]
  · exact absurd full room

/-- Settles O35: the push on a full stack raises StackOverflow, and fault entry writes RUN and the fault record alone, so
stack, SP and PC stand as before. -/
theorem callOnAFullStackOverflows : Obligations.CallOnAFullStackOverflows := by
  intro s nnn full
  have sameStack := s.takeFault_stack (encode (.call nnn)) .stackOverflow
  have sameDepth : (s.takeFault (encode (.call nnn)) .stackOverflow).sp = 16 := by rw [State.sp, sameStack]; exact full
  exact ⟨_, exec_call_of_full s nnn full, s.takeFault_faultEntry (.call nnn) rfl, sameStack, sameDepth,
    s.takeFault_pc _ _⟩

end Sys2Proof.Machine
end

section
/-! The statements about the encoding (30_encoding.md). -/

namespace Sys2Proof

open Laws.EncodesToItsRow (mask_class_NNN mask_class_low mask_class_digit)

/-! ## A word put together from its own fields (rules R61, R62) -/

theorem formatNNN_eq_of_class {w : Word} {c : BitVec 4} (cls : opClass w = c) : formatNNN c (fieldNNN w) = w := by
  rw [← cls, formatNNN_fields]

theorem formatXNN_eq_of_class {w : Word} {c : BitVec 4} (cls : opClass w = c) :
    formatXNN c (fieldX w) (fieldNN w) = w := by
  rw [← cls, formatXNN_fields]

theorem formatXYN_eq_of_class {w : Word} {c : BitVec 4} (cls : opClass w = c) :
    formatXYN c (fieldX w) (fieldY w) (fieldN w) = w := by
  rw [← cls, formatXYN_fields]

theorem formatXNN_eq_of_low {w : Word} {c : BitVec 4} {nn : Byte} (cls : opClass w = c) (low : fieldNN w = nn) :
    formatXNN c (fieldX w) nn = w := by
  rw [← low, formatXNN_eq_of_class cls]

theorem formatXYN_eq_of_digit {w : Word} {c : BitVec 4} {n : Count} (cls : opClass w = c) (digit : fieldN w = n) :
    formatXYN c (fieldX w) (fieldY w) n = w := by
  rw [← digit, formatXYN_eq_of_class cls]

/-! ## Decoding an encoding (rule R64) -/

theorem decode_encode (i : Instr) : decode (encode i) = .instr i := by
  cases i
  case cls => rfl
  case ret => rfl
  case jp | call | ldIdx | jpV0 => simp [encode, decode]
  case seI | sneI | ldI | addI | rnd => simp [encode, decode]
  case seR | sneR | drw => simp [encode, decode]
  case ldR | orR | andR | xorR | addR | sub | shr | subn | shl => simp [encode, decode, decodeClass8]
  case skp | sknp => simp [encode, decode, decodeClassE]
  all_goals simp [encode, decode, decodeClassF]

/-! ## What decoding a word can answer (rules R64, R71) -/

/-- What a decoder may answer for `w`: an instruction whose encoding it is, or unknown opcode with `w` itself. -/
def Decoded.Reads (w : Word) : Decoded → Prop
  | .instr i => encode i = w
  | .unknownOpcode op => op = w

theorem decodeClass0_reads (w : Word) : (decodeClass0 w).Reads w := by
  unfold decodeClass0
  split
  case isTrue isCls => exact isCls.symm
  case isFalse =>
    split
    case isTrue isRet => exact isRet.symm
    case isFalse => rfl

theorem decodeClass8_reads {w : Word} (cls : opClass w = 0x8) : (decodeClass8 w).Reads w := by
  unfold decodeClass8
  split
  case h_10 => rfl
  all_goals next digit => exact formatXYN_eq_of_digit cls digit

theorem decodeClassE_reads {w : Word} (cls : opClass w = 0xE) : (decodeClassE w).Reads w := by
  unfold decodeClassE
  split
  case h_3 => rfl
  all_goals next low => exact formatXNN_eq_of_low cls low

theorem decodeClassF_reads {w : Word} (cls : opClass w = 0xF) : (decodeClassF w).Reads w := by
  unfold decodeClassF
  split
  case h_10 => rfl
  all_goals next low => exact formatXNN_eq_of_low cls low

theorem decode_reads (w : Word) : (decode w).Reads w := by
  unfold decode
  split
  case h_1 => exact decodeClass0_reads w
  case h_6 cls =>
    split
    case isTrue digit => exact formatXYN_eq_of_digit cls digit
    case isFalse => rfl
  case h_9 cls => exact decodeClass8_reads cls
  case h_10 cls =>
    split
    case isTrue digit => exact formatXYN_eq_of_digit cls digit
    case isFalse => rfl
  case h_14 cls => exact formatXYN_eq_of_class cls
  case h_15 cls => exact decodeClassE_reads cls
  case h_16 =>
    have cls : opClass w = 0xF := by
      generalize opClass w = c at *
      revert c
      decide
    exact decodeClassF_reads cls
  case h_2 cls | h_3 cls | h_11 cls | h_12 cls => exact formatNNN_eq_of_class cls
  all_goals next cls => exact formatXNN_eq_of_class cls

/-- A word decodes to `i` exactly when it is the encoding of `i`. -/
theorem decode_eq_instr_iff {w : Word} {i : Instr} : decode w = .instr i ↔ encode i = w := by
  constructor
  · intro decoded
    have reads := decode_reads w
    rwa [decoded] at reads
  · rintro rfl
    exact decode_encode i

theorem decode_eq_unknownOpcode {w op : Word} (decoded : decode w = .unknownOpcode op) : op = w := by
  have reads := decode_reads w
  rwa [decoded] at reads

/-! ## The rows as conditions on the fields (rule R69) -/

theorem accepts_whole_iff {r : OpcodeRow} {v w : Word} (row : r = ⟨0xFFFF#16, v⟩) : r.accepts w = true ↔ w = v := by
  have masked : w &&& 0xFFFF#16 = w := BitVec.and_allOnes
  rw [row, OpcodeRow.accepts, masked, beq_iff_eq]

theorem accepts_class_iff {r : OpcodeRow} {c : BitVec 4} {w : Word} (row : r = ⟨0xF000#16, formatNNN c 0⟩) :
    r.accepts w = true ↔ opClass w = c := by
  have masked : w &&& 0xF000#16 = formatNNN (opClass w) 0 := by rw [← mask_class_NNN, formatNNN_fields]
  rw [row, OpcodeRow.accepts, masked, beq_iff_eq]
  constructor
  · intro same
    simpa using congrArg opClass same
  · intro cls
    rw [cls]

theorem accepts_low_iff {r : OpcodeRow} {c : BitVec 4} {nn : Byte} {w : Word}
    (row : r = ⟨0xF0FF#16, formatXNN c 0 nn⟩) : r.accepts w = true ↔ opClass w = c ∧ fieldNN w = nn := by
  have masked : w &&& 0xF0FF#16 = formatXNN (opClass w) 0 (fieldNN w) := by rw [← mask_class_low, formatXNN_fields]
  rw [row, OpcodeRow.accepts, masked, beq_iff_eq]
  constructor
  · intro same
    exact ⟨by simpa using congrArg opClass same, by simpa using congrArg fieldNN same⟩
  · rintro ⟨cls, low⟩
    rw [cls, low]

theorem accepts_digit_iff {r : OpcodeRow} {c : BitVec 4} {n : Count} {w : Word}
    (row : r = ⟨0xF00F#16, formatXYN c 0 0 n⟩) : r.accepts w = true ↔ opClass w = c ∧ fieldN w = n := by
  have masked : w &&& 0xF00F#16 = formatXYN (opClass w) 0 0 (fieldN w) := by
    rw [← mask_class_digit, formatXYN_fields]
  rw [row, OpcodeRow.accepts, masked, beq_iff_eq]
  constructor
  · intro same
    exact ⟨by simpa using congrArg opClass same, by simpa using congrArg fieldN same⟩
  · rintro ⟨cls, digit⟩
    rw [cls, digit]

/-! ## The opcode map (rules R69, R71) -/

open Laws.EncodesToItsRow in
theorem row_accepts_encode (i : Instr) : Statement i := by
  cases i
  exacts [cls, ret, jp _, call _, seI _ _, sneI _ _, seR _ _, sneR _ _, ldI _ _, addI _ _, ldR _ _, orR _ _,
    andR _ _, xorR _ _, addR _ _, sub _ _, shr _ _, subn _ _, shl _ _, ldIdx _, jpV0 _, rnd _ _, drw _ _ _, skp _,
    sknp _, ldVxDt _, ldVxK _, ldDtVx _, ldStVx _, addIdx _, ldF _, ldB _, stRegs _, ldRegs _]

/-! A word that meets the row of an instruction is the encoding of one with that row: the one whose operands are the
word's own fields. Once per format (rule R62), then for every instruction. -/

theorem exists_encode_of_accepts_NNN {w : Word} {c : BitVec 4} {mk : Addr12 → Instr} {nnn : Addr12}
    (accepts : (mk nnn).row.accepts w = true) (encodes : ∀ n, encode (mk n) = formatNNN c n)
    (row : ∀ n, (mk n).row = ⟨0xF000#16, formatNNN c 0⟩) : ∃ j : Instr, encode j = w ∧ j.row = (mk nnn).row := by
  have cls := (accepts_class_iff (row nnn)).mp accepts
  exact ⟨mk (fieldNNN w), (encodes _).trans (formatNNN_eq_of_class cls), (row _).trans (row _).symm⟩

theorem exists_encode_of_accepts_XNN {w : Word} {c : BitVec 4} {mk : Reg → Byte → Instr} {x : Reg} {nn : Byte}
    (accepts : (mk x nn).row.accepts w = true) (encodes : ∀ x n, encode (mk x n) = formatXNN c x n)
    (row : ∀ x n, (mk x n).row = ⟨0xF000#16, formatNNN c 0⟩) : ∃ j : Instr, encode j = w ∧ j.row = (mk x nn).row := by
  have cls := (accepts_class_iff (row x nn)).mp accepts
  exact ⟨mk (fieldX w) (fieldNN w), (encodes _ _).trans (formatXNN_eq_of_class cls), (row _ _).trans (row _ _).symm⟩

theorem exists_encode_of_accepts_XSS {w : Word} {c : BitVec 4} {nn : Byte} {mk : Reg → Instr} {x : Reg}
    (accepts : (mk x).row.accepts w = true) (encodes : ∀ x, encode (mk x) = formatXNN c x nn)
    (row : ∀ x, (mk x).row = ⟨0xF0FF#16, formatXNN c 0 nn⟩) : ∃ j : Instr, encode j = w ∧ j.row = (mk x).row := by
  obtain ⟨cls, low⟩ := (accepts_low_iff (row x)).mp accepts
  exact ⟨mk (fieldX w), (encodes _).trans (formatXNN_eq_of_low cls low), (row _).trans (row _).symm⟩

theorem exists_encode_of_accepts_XYS {w : Word} {c : BitVec 4} {n : Count} {mk : Reg → Reg → Instr} {x y : Reg}
    (accepts : (mk x y).row.accepts w = true) (encodes : ∀ x y, encode (mk x y) = formatXYN c x y n)
    (row : ∀ x y, (mk x y).row = ⟨0xF00F#16, formatXYN c 0 0 n⟩) :
    ∃ j : Instr, encode j = w ∧ j.row = (mk x y).row := by
  obtain ⟨cls, digit⟩ := (accepts_digit_iff (row x y)).mp accepts
  exact ⟨mk (fieldX w) (fieldY w), (encodes _ _).trans (formatXYN_eq_of_digit cls digit),
    (row _ _).trans (row _ _).symm⟩

theorem exists_encode_of_accepts {i : Instr} {w : Word} (accepts : i.row.accepts w = true) :
    ∃ j : Instr, encode j = w ∧ j.row = i.row := by
  cases i
  case cls => exact ⟨.cls, ((accepts_whole_iff rfl).mp accepts).symm, rfl⟩
  case ret => exact ⟨.ret, ((accepts_whole_iff rfl).mp accepts).symm, rfl⟩
  case jp | call | ldIdx | jpV0 => exact exists_encode_of_accepts_NNN accepts (fun _ => rfl) (fun _ => rfl)
  case seI | sneI | ldI | addI | rnd =>
    exact exists_encode_of_accepts_XNN accepts (fun _ _ => rfl) (fun _ _ => rfl)
  case seR | sneR | ldR | orR | andR | xorR | addR | sub | shr | subn | shl =>
    exact exists_encode_of_accepts_XYS accepts (fun _ _ => rfl) (fun _ _ => rfl)
  case drw =>
    have cls : opClass w = 0xD := (accepts_class_iff rfl).mp accepts
    exact ⟨.drw (fieldX w) (fieldY w) (fieldN w), formatXYN_eq_of_class cls, rfl⟩
  all_goals exact exists_encode_of_accepts_XSS accepts (fun _ => rfl) (fun _ => rfl)

theorem exists_decode_of_accepts {i : Instr} {w : Word} (accepts : i.row.accepts w = true) :
    ∃ j : Instr, decode w = .instr j ∧ j.row = i.row := by
  obtain ⟨j, encodes, sameRow⟩ := exists_encode_of_accepts accepts
  exact ⟨j, decode_eq_instr_iff.mpr encodes, sameRow⟩

/-- What decodes meets its own row, its encoding being the word. -/
theorem row_accepts_of_decode {i : Instr} {w : Word} (decoded : decode w = .instr i) : i.row.accepts w = true := by
  obtain rfl := decode_eq_instr_iff.mp decoded
  exact row_accepts_encode i

theorem mem_opcodeMap_iff {r : OpcodeRow} : r ∈ opcodeMap ↔ ∃ i : Instr, i.row = r := by
  constructor
  · revert r
    simp [opcodeMap, or_imp, forall_and]
  · rintro ⟨i, rfl⟩
    cases i <;> simp [opcodeMap, Instr.row]

theorem wordWellFormed_iff {w : Word} : wordWellFormed w = true ↔ ∃ i : Instr, i.row.accepts w = true := by
  rw [wordWellFormed, List.any_eq_true]
  constructor
  · rintro ⟨r, mem, accepts⟩
    obtain ⟨i, rfl⟩ := mem_opcodeMap_iff.mp mem
    exact ⟨i, accepts⟩
  · rintro ⟨i, accepts⟩
    exact ⟨i.row, mem_opcodeMap_iff.mpr ⟨i, rfl⟩, accepts⟩

theorem exists_decode_iff_wordWellFormed {w : Word} : (∃ i, decode w = .instr i) ↔ wordWellFormed w = true := by
  rw [wordWellFormed_iff]
  constructor
  · rintro ⟨i, decoded⟩
    exact ⟨i, row_accepts_of_decode decoded⟩
  · rintro ⟨i, accepts⟩
    obtain ⟨j, decoded, -⟩ := exists_decode_of_accepts accepts
    exact ⟨j, decoded⟩

theorem decode_of_not_wordWellFormed {w : Word} (illFormed : wordWellFormed w = false) :
    decode w = .unknownOpcode w := by
  cases decoded : decode w with
  | instr i => exact absurd (exists_decode_iff_wordWellFormed.mp ⟨i, decoded⟩) (by simp [illFormed])
  | unknownOpcode op => rw [decode_eq_unknownOpcode decoded]

/-- Two rows that accept one word are the row of the instruction it decodes to. -/
theorem eq_of_mem_opcodeMap_of_accepts {r q : OpcodeRow} {w : Word} (rMem : r ∈ opcodeMap) (qMem : q ∈ opcodeMap)
    (rAccepts : r.accepts w = true) (qAccepts : q.accepts w = true) : r = q := by
  obtain ⟨i, rfl⟩ := mem_opcodeMap_iff.mp rMem
  obtain ⟨k, rfl⟩ := mem_opcodeMap_iff.mp qMem
  obtain ⟨j, decoded, ofI⟩ := exists_decode_of_accepts rAccepts
  obtain ⟨j', decoded', ofK⟩ := exists_decode_of_accepts qAccepts
  obtain rfl : j = j' := Decoded.instr.inj (decoded.symm.trans decoded')
  exact ofI.symm.trans ofK

/-! ## The statements -/

/-- Settles O1: each word is decoded by evaluation. -/
theorem specExampleWordsDecode : Obligations.SpecExampleWordsDecode := by
  unfold Obligations.SpecExampleWordsDecode
  decide

/-- Settles O2: the two bytes put together are the encoding again, and decoding it gives the instruction. -/
theorem decodeOfEncodeIsTheInstruction : Obligations.DecodeOfEncodeIsTheInstruction := by
  intro i rest
  show some (decode (Word.ofBytes (encode i).hi (encode i).lo), rest) = some (.instr i, rest)
  rw [Machine.Word.ofBytes_hi_lo, decode_encode]

/-- Settles O3: every branch of the decoder puts the word's own fields in the instruction. -/
theorem encodeOfDecodeIsTheWord : Obligations.EncodeOfDecodeIsTheWord :=
  fun _ _ => decode_eq_instr_iff.mp

/-- Settles O4: decoding and encoding are inverse, and a row is met exactly by the encodings of its instructions. -/
theorem wordDecodesIffItMatchesARow : Obligations.WordDecodesIffItMatchesARow :=
  fun _ => ⟨fun _ => row_accepts_of_decode, fun _ => exists_decode_of_accepts, exists_decode_iff_wordWellFormed,
    decode_of_not_wordWellFormed⟩

/-- Settles O5: the 34 rows are distinct, and two of them that accept one word are the same row. -/
theorem noTwoRowsMatchTheSameWord : Obligations.NoTwoRowsMatchTheSameWord := by
  intro w
  have distinct : (opcodeMap.filter (·.accepts w)).Nodup := (by decide : opcodeMap.Nodup).filter _
  rw [← List.toFinset_card_of_nodup distinct, Finset.card_le_one]
  intro r rMem q qMem
  obtain ⟨rMem, rAccepts⟩ := List.mem_filter.mp (List.mem_toFinset.mp rMem)
  obtain ⟨qMem, qAccepts⟩ := List.mem_filter.mp (List.mem_toFinset.mp qMem)
  exact eq_of_mem_opcodeMap_of_accepts rMem qMem rAccepts qAccepts

end Sys2Proof
end

section
/-! The statements about registers, call stack and fetch as parts of memory and state (10_state.md, 20_memory.md). -/

namespace Sys2Proof.Machine

/-! ## The registers of two bytes and of one (rules R17, R19, R49) -/

theorem State.setWord_word (s : State) (a : Nat) (w : Word) : (s.setWord a w).word a = w := by
  simp [State.word, State.setWord_byte]

/-- A register of two bytes: what it reads as, and what a store to either byte and a write of it leave. -/
theorem State.word_spec (s : State) (a : Nat) (v : Byte) (w : Word) :
    (s.word a).toNat = 256 * (s.byte a).toNat + (s.byte (a + 1)).toNat ∧
      ((s.setByte a v).word a).toNat = 256 * v.toNat + (s.word a).toNat % 256 ∧
      ((s.setByte (a + 1) v).word a).toNat = 256 * ((s.word a).toNat / 256) + v.toNat ∧
      (s.setWord a w).word a = w ∧ ((s.setWord a w).byte a).toNat = w.toNat / 256 ∧
      ((s.setWord a w).byte (a + 1)).toNat = w.toNat % 256 := by
  have reads (t : State) : (t.word a).toNat = 256 * (t.byte a).toNat + (t.byte (a + 1)).toNat :=
    Word.ofBytes_toNat _ _
  have lowByte := (s.byte (a + 1)).isLt
  refine ⟨reads s, ?storeHigh, ?storeLow, s.setWord_word a w, ?high, ?low⟩
  case storeHigh =>
    rw [reads, reads, State.setByte_byte, State.setByte_byte, if_pos rfl, if_neg (Nat.succ_ne_self a)]
    omega
  case storeLow =>
    rw [reads, reads, State.setByte_byte, State.setByte_byte, if_pos rfl, if_neg (Nat.succ_ne_self a).symm]
    omega
  case high => rw [State.setWord_byte, if_neg (Nat.succ_ne_self a).symm, if_pos rfl, Word.hi_toNat]
  case low => rw [State.setWord_byte, if_pos rfl, Word.lo_toNat]

theorem State.setByte_byte_self (s : State) (a : Nat) (v : Byte) : (s.setByte a v).byte a = v := by
  rw [State.setByte_byte, if_pos rfl]

theorem State.setByte_pc_of_not_mem {s : State} {a : Nat} {v : Byte} (elsewhere : a ∉ pcBytes) :
    (s.setByte a v).pc = s.pc := by
  simp only [pcBytes, List.mem_cons, List.not_mem_nil, or_false, not_or] at elsewhere
  obtain ⟨notHigh, notLow⟩ := elsewhere
  rw [State.pc, State.word, State.setByte_byte, State.setByte_byte, if_neg (Ne.symm notHigh),
    if_neg (Ne.symm notLow)]
  rfl

/-! ## The statements -/

/-- Settles O28: V, DT and ST are one byte each, I and PC are words at their addresses. -/
theorem registersAreBytesOfMemory : Obligations.RegistersAreBytesOfMemory := by
  intro s v w
  refine ⟨fun x => ?registers, s.word_spec iAddr v w, s.word_spec pcAddr v w, ?delay, ?sound⟩
  case registers =>
    have address : vAddr x = x.toNat := Nat.zero_add _
    rw [← address]
    exact ⟨rfl, s.setByte_byte_self _ v, s.setByte_byte_self _ v⟩
  case delay => exact ⟨rfl, s.setByte_byte_self _ v, s.setByte_byte_self _ v, s.setByte_byte_self _ v⟩
  case sound => exact ⟨rfl, s.setByte_byte_self _ v, s.setByte_byte_self _ v, s.setByte_byte_self _ v⟩

/-- Settles O29: the store leaves PC, so the fetch reads the two bytes at the old PC, one of which may be the stored
one. -/
theorem storeIsSeenByTheNextFetch : Obligations.StoreIsSeenByTheNextFetch := by
  intro s a v elsewhere
  rw [State.fetch, State.setByte_pc_of_not_mem elsewhere, State.word, Word.ofBytes_toNat, State.setByte_byte,
    State.setByte_byte]

/-- Settles O30: push and pop are the operations on the end of a list, guarded at 16 entries and at none. -/
theorem stackContract : Obligations.StackContract := by
  intro s a
  refine ⟨s.push_full a, fun room => ?push, fun empty => ?none, fun some => ?newest⟩
  case push =>
    have popped := State.pop_ok { s with stack := s.stack ++ [a] } (l := s.stack) (a := a) rfl
    refine ⟨_, s.push_ok a room, rfl, List.length_append, ?peek, popped⟩
    case peek => rw [State.peek_eq, popped]; rfl
  case none =>
    have popped := s.pop_empty (List.length_eq_zero_iff.mp empty)
    exact ⟨popped, by rw [State.peek_eq, popped]; rfl⟩
  case newest =>
    rcases s.pop_cases with ⟨empty, -⟩ | ⟨l, b, newest, popped⟩
    · exact absurd (List.length_eq_zero_iff.mpr empty) some
    · refine ⟨b, _, by rw [State.peek_eq, popped]; rfl, popped, rfl, ?depth, newest⟩
      case depth => rw [State.sp, State.sp, newest, List.length_append]; rfl

end Sys2Proof.Machine
end

section
/-! The statements about every instruction: when it faults (60_exceptions.md), what it leaves alone (10_state.md), and
the ranges and flags that several instructions share (20_memory.md, S2). -/

namespace Sys2Proof.Machine

theorem eq_of_next {o : Host.Outcome State Fault Refusal} {t u : State} (ends : o = .next t) (ends' : o = .next u) :
    t = u := Host.Outcome.next.inj (ends.symm.trans ends')

/-! ## A range that leaves memory (rules R46, R133) -/

/-- The range checks count bytes, the table of rule R135 names the last one. -/
theorem memSize_lt_add_iff {a n : Nat} : Config.memSize < a + n ↔ lastAddr < a + n - 1 := by
  rw [Config.memSize, lastAddr]
  omega

theorem exec_drw_of_outside (s : State) (x y : Reg) (n : Count) (positive : 0 < n.toNat)
    (outside : lastAddr < s.base + n.toNat - 1) :
    exec (.drw x y n) s = .next (s.takeFault (encode (.drw x y n)) (outsideFrom s)) := by
  rcases drwRule_cases x y n s with ⟨-, -, ends⟩ | ⟨inside, -⟩
  · rw [exec, execDrw, ends, settle_error]
  · have := memSize_lt_add_iff.mpr outside
    omega

theorem exec_ldB_of_outside (s : State) (x : Reg) (outside : lastAddr < s.base + 2) :
    exec (.ldB x) s = .next (s.takeFault (encode (.ldB x)) (outsideFrom s)) := by
  rcases ldBRule_cases x s with ⟨-, ends⟩ | ⟨inside, -⟩
  · rw [exec, execLdB, ends, settle_error]
  · exact absurd (Nat.succ_lt_succ outside) (Nat.not_lt.mpr inside)

theorem exec_stRegs_of_outside (s : State) (x : Reg) (outside : lastAddr < s.base + x.toNat) :
    exec (.stRegs x) s = .next (s.takeFault (encode (.stRegs x)) (outsideFrom s)) := by
  rcases stRegsRule_cases x s with ⟨-, ends⟩ | ⟨inside, -⟩
  · rw [exec, execStRegs, ends, settle_error]
  · exact absurd (Nat.succ_lt_succ outside) (Nat.not_lt.mpr inside)

theorem exec_ldRegs_of_outside (s : State) (x : Reg) (outside : lastAddr < s.base + x.toNat) :
    exec (.ldRegs x) s = .next (s.takeFault (encode (.ldRegs x)) (outsideFrom s)) := by
  rcases ldRegsRule_cases x s with ⟨-, ends⟩ | ⟨inside, -⟩
  · rw [exec, execLdRegs, ends, settle_error]
  · exact absurd (Nat.succ_lt_succ outside) (Nat.not_lt.mpr inside)

theorem exec_ldVxK_of_newKey {s : State} (x : Reg) (newKey : s.newKeys ≠ 0) :
    exec (.ldVxK x) s = .next (s.setV x (BitVec.ofNat 8 (lowestKey s.newKeys))).advance := by
  rw [exec, execLdVxK, if_neg newKey]

/-! ## The table of rule R135: on its condition the instruction takes a fault -/

theorem exec_of_faultsIn {i : Instr} {s : State} (faults : faultsIn i s) :
    ∃ r, exec i s = .next (s.takeFault (encode i) r) := by
  cases i
  case ret => exact ⟨_, exec_ret_of_empty s faults⟩
  case call nnn => exact ⟨_, exec_call_of_full s nnn faults⟩
  case jpV0 nnn => exact ⟨_, exec_jpV0_of_outside s nnn faults⟩
  case drw x y n => exact ⟨_, exec_drw_of_outside s x y n faults.left faults.right⟩
  case ldB x => exact ⟨_, exec_ldB_of_outside s x faults⟩
  case stRegs x => exact ⟨_, exec_stRegs_of_outside s x faults⟩
  case ldRegs x => exact ⟨_, exec_ldRegs_of_outside s x faults⟩
  all_goals exact faults.elim

theorem inside_of_not_faultsIn_drw {s : State} {x y : Reg} {n : Count} (fits : ¬ faultsIn (.drw x y n) s) :
    n.toNat = 0 ∨ s.regI.toNat + n.toNat - 1 ≤ lastAddr := by
  by_contra outside
  exact fits ⟨by omega, by omega⟩

/-! ## ... and off it the instruction completes, with these effects at most -/

/-- What an instruction that completes may change: memory, the stack if it is CALL or RET, the display if it is CLS or
DRW, and the outputs (rules R20, R21, R27c, R80). -/
structure ExecEffects (i : Instr) (s t : State) : Prop where
  fields : t = { s with mem := t.mem, stack := t.stack, disp := t.disp, out := t.out }
  stack : (∀ nnn, i ≠ .call nnn) → i ≠ .ret → t.stack = s.stack
  disp : i ≠ .cls → (∀ x y n, i ≠ .drw x y n) → t.disp = s.disp

theorem ExecEffects.of_writesOnly {i : Instr} {s t : State} {as : List Nat} (frame : s.WritesOnly t as) :
    ExecEffects i s t := by
  obtain ⟨memory, -⟩ := frame
  constructor
  all_goals rw [memory]
  · exact fun _ _ => rfl
  · exact fun _ _ => rfl

theorem exec_effects (i : Instr) {s : State} (fits : ¬ faultsIn i s) :
    ∃ t, exec i s = .next t ∧ ExecEffects i s t := by
  cases i
  case cls => exact ⟨_, exec_cls s, rfl, fun _ _ => rfl, fun notCls => absurd rfl notCls⟩
  case ret =>
    obtain ⟨l, a, newest⟩ : ∃ l a, s.stack = l ++ [a] := by
      rcases s.pop_cases with ⟨empty, -⟩ | ⟨l, a, newest, -⟩
      · exact absurd (List.length_eq_zero_iff.mpr empty) fits
      · exact ⟨l, a, newest⟩
    exact ⟨_, exec_ret_of_newest s newest, rfl, fun _ notRet => absurd rfl notRet, fun _ _ => rfl⟩
  case call nnn =>
    exact ⟨_, exec_call_of_room s nnn fits, rfl, fun notCall _ => absurd rfl (notCall nnn), fun _ _ => rfl⟩
  case jpV0 nnn =>
    exact ⟨_, exec_jpV0_of_inside s nnn (Nat.not_lt.mp fits), .of_writesOnly (State.setPc_writesOnly s _)⟩
  case drw x y n =>
    have inside := inside_of_not_faultsIn_drw fits
    exact ⟨_, exec_drw_of_inside s x y n inside, rfl, fun _ _ => rfl, fun _ notDrw => absurd rfl (notDrw x y n)⟩
  case ldB x =>
    exact ⟨_, exec_ldB_of_inside s x (Nat.not_lt.mp fits),
      .of_writesOnly ((s.storeDigits_writesOnly x).trans (State.advance_writesOnly _))⟩
  case stRegs x =>
    obtain ⟨u, loop, ends⟩ := exec_stRegs_of_inside s x (Nat.not_lt.mp fits)
    exact ⟨_, ends, .of_writesOnly ((storeRegs_writesOnly loop).trans (State.advance_writesOnly u))⟩
  case ldRegs x =>
    obtain ⟨u, loop, ends⟩ := exec_ldRegs_of_inside s x (Nat.not_lt.mp fits)
    have registers : 0 + (x.toNat + 1) ≤ 16 := by omega
    exact ⟨_, ends, .of_writesOnly ((loadRegs_writesOnly registers loop).trans (State.advance_writesOnly u))⟩
  case ldVxK x =>
    by_cases noNewKey : s.newKeys = 0
    · exact ⟨_, exec_ldVxK_of_noNewKey x noNewKey, rfl, fun _ _ => rfl, fun _ _ => rfl⟩
    · exact ⟨_, exec_ldVxK_of_newKey x noNewKey, .of_writesOnly (State.setV_advance_writesOnly s x _)⟩
  case seI | sneI | seR | sneR | skp | sknp => exact ⟨_, rfl, .of_writesOnly (State.skipIf_writesOnly s _)⟩
  case jp => exact ⟨_, rfl, .of_writesOnly (State.setPc_writesOnly s _)⟩
  case addR | sub | shr | subn | shl =>
    exact ⟨_, rfl, .of_writesOnly (State.setResultFlag_advance_writesOnly s _ _ _)⟩
  case ldIdx | addIdx | ldF => exact ⟨_, rfl, .of_writesOnly (State.setRegI_advance_writesOnly s _)⟩
  case ldDtVx => exact ⟨_, rfl, .of_writesOnly ((State.setDt_writesOnly s _).trans (State.advance_writesOnly _))⟩
  case ldStVx => exact ⟨_, rfl, .of_writesOnly ((State.setSt_writesOnly s _).trans (State.advance_writesOnly _))⟩
  all_goals exact ⟨_, rfl, .of_writesOnly (State.setV_advance_writesOnly s _ _)⟩

/-- The two ways an instruction ends (rule R75): fault entry on the table's condition, else its effects. -/
theorem exec_ends {i : Instr} {s t : State} (executed : exec i s = .next t) :
    (faultsIn i s ∧ ∃ r, t = s.takeFault (encode i) r) ∨ (¬ faultsIn i s ∧ ExecEffects i s t) := by
  by_cases faults : faultsIn i s
  · obtain ⟨r, ends⟩ := exec_of_faultsIn faults
    exact .inl ⟨faults, r, eq_of_next executed ends⟩
  · obtain ⟨t', ends, effects⟩ := exec_effects i faults
    obtain rfl : t = t' := eq_of_next executed ends
    exact .inr ⟨faults, effects⟩

theorem exec_run_eq_faulted_iff {i : Instr} {s t : State} (running : s.run = .running)
    (executed : exec i s = .next t) : t.run = .faulted ↔ faultsIn i s := by
  rcases exec_ends executed with ⟨faults, r, rfl⟩ | ⟨fits, effects⟩
  · exact iff_of_true rfl faults
  · have stillRunning : t.run ≠ .faulted := by
      rw [effects.fields, running]
      decide
    exact iff_of_false stillRunning fits

/-! ## Flags (rule R107) -/

/-- The flag stands in VF whatever X is, so VF is 0 or 1. -/
theorem State.setResultFlag_advance_vf_cases (s : State) (x : Reg) (r : Byte) (b : Bool) :
    (s.setResultFlag x r (flagByte b)).advance.v vf = 0 ∨ (s.setResultFlag x r (flagByte b)).advance.v vf = 1 := by
  obtain ⟨-, flag, -⟩ := s.setResultFlag_advance_spec x r (flagByte b)
  rw [flag]
  exact flagByte_cases b

/-! ## The statements -/

/-- Settles O22: the table's condition decides between fault entry and completion, and an instruction that completes
leaves RUN alone. -/
theorem instructionFaultsExactlyWhenTheTableSays : Obligations.InstructionFaultsExactlyWhenTheTableSays :=
  fun _ _ _ => exec_run_eq_faulted_iff

/-- Settles O23: an instruction that ends Faulted met its condition, so its end is fault entry, whose record is that of
the kind raised. -/
theorem faultsArePrecise : Obligations.FaultsArePrecise := by
  intro i s t running executed faulted
  rcases exec_ends executed with ⟨-, r, rfl⟩ | ⟨fits, -⟩
  · cases r with
    | stackOverflow => exact ⟨.stackOverflow, 0, s.takeFault_faultEntry i rfl, rfl, fun _ => rfl⟩
    | stackUnderflow => exact ⟨.stackUnderflow, 0, s.takeFault_faultEntry i rfl, rfl, fun _ => rfl⟩
    | addressOutOfRange a =>
      exact ⟨.addressOutOfRange, a, s.takeFault_faultEntry i rfl, rfl, fun notAddress => absurd rfl notAddress⟩
  · exact absurd ((exec_run_eq_faulted_iff running executed).mp faulted) fits

/-- Settles O24: fault entry changes neither, and the effects of an instruction that completes are listed. -/
theorem stackAndDisplayHaveTheirOwnInstructions : Obligations.StackAndDisplayHaveTheirOwnInstructions := by
  intro i s t executed
  rcases exec_ends executed with ⟨-, r, rfl⟩ | ⟨-, effects⟩
  · exact ⟨fun _ _ => s.takeFault_stack (encode i) r, fun _ _ => s.takeFault_disp (encode i) r⟩
  · exact ⟨effects.stack, effects.disp⟩

/-- Settles O50: the check of the whole range raises the first address outside before anything changes. -/
theorem rangeOutsideMemoryFaults : Obligations.RangeOutsideMemoryFaults := by
  intro s x y n
  refine ⟨?drw, ?ldB, fun outside => ⟨?stRegs, ?ldRegs⟩⟩
  case drw =>
    intro positive outside
    exact ⟨_, exec_drw_of_outside s x y n positive outside, s.takeFault_faultEntry (.drw x y n) rfl⟩
  case ldB =>
    intro outside
    exact ⟨_, exec_ldB_of_outside s x outside, s.takeFault_faultEntry (.ldB x) rfl⟩
  case stRegs => exact ⟨_, exec_stRegs_of_outside s x outside, s.takeFault_faultEntry (.stRegs x) rfl⟩
  case ldRegs => exact ⟨_, exec_ldRegs_of_outside s x outside, s.takeFault_faultEntry (.ldRegs x) rfl⟩

/-- Settles O44: each of the first five writes a flag byte to VF last, and O52 says it of DRW. -/
theorem flagIsZeroOrOne : Obligations.FlagIsZeroOrOne := by
  intro i s t x y n mem executed fits
  simp only [List.mem_cons, List.not_mem_nil, or_false] at mem
  rcases mem with rfl | rfl | rfl | rfl | rfl | rfl
  on_goal 6 =>
    obtain ⟨t', drawn, -, zeroOrOne, -⟩ := drwTogglesTheSprite s x y n (inside_of_not_faultsIn_drw fits)
    obtain rfl : t = t' := eq_of_next executed drawn
    exact zeroOrOne
  all_goals
    obtain rfl := Host.Outcome.next.inj executed
    exact s.setResultFlag_advance_vf_cases x _ _

end Sys2Proof.Machine
end

section
/-! The statements about the inputs of a Step: which instructions read the keys, KPREV and the random byte (10_state.md
sections 9 and 11, 60_exceptions.md section 7). -/

namespace Sys2Proof.Machine

/-- The state with other inputs: KPREV, the keys and the random byte of the Step (rules R22, R26). -/
def State.withInputs (s : State) (kprev keys : Word) (rnd : Byte) : State :=
  { s with kprev := kprev, keys := keys, rnd := rnd }

/-- The instructions that read the keys (rule R155). -/
def ReadsKeys : Instr → Prop
  | .skp _ | .sknp _ | .ldVxK _ => True
  | _ => False

/-- The instruction that reads KPREV (rule R22). -/
def ReadsKprev : Instr → Prop
  | .ldVxK _ => True
  | _ => False

/-- The instruction that reads the random byte (rule R156). -/
def ReadsRnd : Instr → Prop
  | .rnd _ _ => True
  | _ => False

/-! ## Other inputs and the operations of the state: each reads the same and writes the same -/

section
variable (s : State) (kprev keys : Word) (rnd : Byte)

@[simp] theorem State.withInputs_byte (a : Nat) : (s.withInputs kprev keys rnd).byte a = s.byte a := rfl
@[simp] theorem State.withInputs_v (x : Reg) : (s.withInputs kprev keys rnd).v x = s.v x := rfl
@[simp] theorem State.withInputs_pc : (s.withInputs kprev keys rnd).pc = s.pc := rfl
@[simp] theorem State.withInputs_regI : (s.withInputs kprev keys rnd).regI = s.regI := rfl
@[simp] theorem State.withInputs_base : (s.withInputs kprev keys rnd).base = s.base := rfl
@[simp] theorem State.withInputs_dt : (s.withInputs kprev keys rnd).dt = s.dt := rfl

@[simp] theorem State.withInputs_rnd : (s.withInputs kprev keys rnd).rnd = rnd := rfl

@[simp] theorem State.withInputs_setByte (a : Nat) (v : Byte) :
    (s.withInputs kprev keys rnd).setByte a v = (s.setByte a v).withInputs kprev keys rnd := rfl
@[simp] theorem State.withInputs_setV (x : Reg) (v : Byte) :
    (s.withInputs kprev keys rnd).setV x v = (s.setV x v).withInputs kprev keys rnd := rfl
@[simp] theorem State.withInputs_setResultFlag (x : Reg) (r f : Byte) :
    (s.withInputs kprev keys rnd).setResultFlag x r f = (s.setResultFlag x r f).withInputs kprev keys rnd := rfl
@[simp] theorem State.withInputs_setRegI (w : Word) :
    (s.withInputs kprev keys rnd).setRegI w = (s.setRegI w).withInputs kprev keys rnd := rfl
@[simp] theorem State.withInputs_setPc (w : Word) :
    (s.withInputs kprev keys rnd).setPc w = (s.setPc w).withInputs kprev keys rnd := rfl
@[simp] theorem State.withInputs_setDt (v : Byte) :
    (s.withInputs kprev keys rnd).setDt v = (s.setDt v).withInputs kprev keys rnd := rfl
@[simp] theorem State.withInputs_setSt (v : Byte) :
    (s.withInputs kprev keys rnd).setSt v = (s.setSt v).withInputs kprev keys rnd := rfl
@[simp] theorem State.withInputs_redraw (d : Display) :
    (s.withInputs kprev keys rnd).redraw d = (s.redraw d).withInputs kprev keys rnd := rfl
@[simp] theorem State.withInputs_takeFault (op : Word) (r : Raise) :
    (s.withInputs kprev keys rnd).takeFault op r = (s.takeFault op r).withInputs kprev keys rnd := rfl
@[simp] theorem State.withInputs_markWaiting :
    (s.withInputs kprev keys rnd).markWaiting = s.markWaiting.withInputs kprev keys rnd := rfl

@[simp] theorem State.withInputs_newKeys :
    (s.withInputs s.kprev s.keys rnd).newKeys = s.newKeys := rfl

@[simp] theorem State.withInputs_advance :
    (s.withInputs kprev keys rnd).advance = s.advance.withInputs kprev keys rnd := by
  rw [State.advance, State.withInputs_pc, State.withInputs_setPc, State.advance]

@[simp] theorem State.withInputs_skipIf (taken : Bool) :
    (s.withInputs kprev keys rnd).skipIf taken = (s.skipIf taken).withInputs kprev keys rnd := by
  cases taken
  · exact s.withInputs_advance kprev keys rnd
  · simp [State.skipIf]

@[simp] theorem State.withInputs_storeDigits (x : Reg) :
    (s.withInputs kprev keys rnd).storeDigits x = (s.storeDigits x).withInputs kprev keys rnd := by
  simp [State.storeDigits]

@[simp] theorem drawnBy_withInputs (x y : Reg) (n : Count) :
    drawnBy x y n (s.withInputs kprev keys rnd) = drawnBy x y n s := rfl

@[simp] theorem jpV0Target_withInputs (nnn : Addr12) :
    jpV0Target nnn (s.withInputs kprev keys rnd) = jpV0Target nnn s := rfl

@[simp] theorem outsideFrom_withInputs : outsideFrom (s.withInputs kprev keys rnd) = outsideFrom s := rfl

end

/-! ## The copy loops read no input -/

theorem storeRegs_withInputs {a n i : Nat} {s t : State} (kprev keys : Word) (rnd : Byte)
    (ends : storeRegs a n i s = .ok t) :
    storeRegs a n i (s.withInputs kprev keys rnd) = .ok (t.withInputs kprev keys rnd) := by
  induction n generalizing i s with
  | zero =>
    obtain rfl : s = t := Except.ok.inj ends
    rfl
  | succ n ih =>
    by_cases inside : a + i ≤ lastAddr
    · rw [storeRegs, s.memWrite_ok inside] at ends
      rw [storeRegs, State.memWrite_ok _ inside]
      exact ih ends
    · rw [storeRegs, s.memWrite_error (Nat.not_le.mp inside)] at ends
      nomatch ends

theorem loadRegs_withInputs {a n i : Nat} {s t : State} (kprev keys : Word) (rnd : Byte)
    (ends : loadRegs a n i s = .ok t) :
    loadRegs a n i (s.withInputs kprev keys rnd) = .ok (t.withInputs kprev keys rnd) := by
  induction n generalizing i s with
  | zero =>
    obtain rfl : s = t := Except.ok.inj ends
    rfl
  | succ n ih =>
    by_cases inside : a + i ≤ lastAddr
    · rw [loadRegs, s.memRead_ok inside] at ends
      rw [loadRegs, State.memRead_ok _ inside]
      exact ih ends
    · rw [loadRegs, s.memRead_error (Nat.not_le.mp inside)] at ends
      nomatch ends

/-- An instruction does the same on other inputs, the ones it reads being as they were. -/
theorem exec_withInputs {i : Instr} {s : State} {kprev keys : Word} {rnd : Byte}
    (sameKprev : ReadsKprev i → kprev = s.kprev) (sameKeys : ReadsKeys i → keys = s.keys)
    (sameRnd : ReadsRnd i → rnd = s.rnd) :
    ∃ t, exec i s = .next t ∧ exec i (s.withInputs kprev keys rnd) = .next (t.withInputs kprev keys rnd) := by
  cases i
  case ret =>
    rcases s.pop_cases with ⟨empty, -⟩ | ⟨l, a, newest, -⟩
    · have noEntry : s.sp = 0 := List.length_eq_zero_iff.mpr empty
      exact ⟨_, exec_ret_of_empty s noEntry, by simpa using exec_ret_of_empty (s.withInputs kprev keys rnd) noEntry⟩
    · exact ⟨_, exec_ret_of_newest s newest, exec_ret_of_newest (s.withInputs kprev keys rnd) newest⟩
  case call nnn =>
    by_cases full : s.sp = Config.stackCap
    · exact ⟨_, exec_call_of_full s nnn full, by simpa using exec_call_of_full (s.withInputs kprev keys rnd) nnn full⟩
    · exact ⟨_, exec_call_of_room s nnn full, exec_call_of_room (s.withInputs kprev keys rnd) nnn full⟩
  case jpV0 nnn =>
    rcases Nat.lt_or_ge lastAddr (jpV0Target nnn s) with outside | inside
    · exact ⟨_, exec_jpV0_of_outside s nnn outside,
        by simpa using exec_jpV0_of_outside (s.withInputs kprev keys rnd) nnn outside⟩
    · exact ⟨_, exec_jpV0_of_inside s nnn inside,
        by simpa using exec_jpV0_of_inside (s.withInputs kprev keys rnd) nnn inside⟩
  case drw x y n =>
    by_cases inside : n.toNat = 0 ∨ s.regI.toNat + n.toNat - 1 ≤ lastAddr
    · exact ⟨_, exec_drw_of_inside s x y n inside,
        by simpa using exec_drw_of_inside (s.withInputs kprev keys rnd) x y n inside⟩
    · have positive : 0 < n.toNat := by omega
      have outside : lastAddr < s.base + n.toNat - 1 := by rw [State.base]; omega
      exact ⟨_, exec_drw_of_outside s x y n positive outside,
        by simpa using exec_drw_of_outside (s.withInputs kprev keys rnd) x y n positive outside⟩
  case ldB x =>
    rcases Nat.lt_or_ge lastAddr (s.base + 2) with outside | inside
    · exact ⟨_, exec_ldB_of_outside s x outside,
        by simpa using exec_ldB_of_outside (s.withInputs kprev keys rnd) x outside⟩
    · exact ⟨_, exec_ldB_of_inside s x inside,
        by simpa using exec_ldB_of_inside (s.withInputs kprev keys rnd) x inside⟩
  case stRegs x =>
    rcases Nat.lt_or_ge lastAddr (s.base + x.toNat) with outside | inside
    · exact ⟨_, exec_stRegs_of_outside s x outside,
        by simpa using exec_stRegs_of_outside (s.withInputs kprev keys rnd) x outside⟩
    · obtain ⟨u, loop, ends⟩ := exec_stRegs_of_inside s x inside
      obtain ⟨u', loop', ends'⟩ := exec_stRegs_of_inside (s.withInputs kprev keys rnd) x inside
      obtain rfl := Except.ok.inj (loop'.symm.trans (storeRegs_withInputs kprev keys rnd loop))
      exact ⟨_, ends, by rw [ends', State.withInputs_advance]⟩
  case ldRegs x =>
    rcases Nat.lt_or_ge lastAddr (s.base + x.toNat) with outside | inside
    · exact ⟨_, exec_ldRegs_of_outside s x outside,
        by simpa using exec_ldRegs_of_outside (s.withInputs kprev keys rnd) x outside⟩
    · obtain ⟨u, loop, ends⟩ := exec_ldRegs_of_inside s x inside
      obtain ⟨u', loop', ends'⟩ := exec_ldRegs_of_inside (s.withInputs kprev keys rnd) x inside
      obtain rfl := Except.ok.inj (loop'.symm.trans (loadRegs_withInputs kprev keys rnd loop))
      exact ⟨_, ends, by rw [ends', State.withInputs_advance]⟩
  case skp | sknp =>
    obtain rfl := sameKeys trivial
    exact ⟨_, rfl, congrArg Host.Outcome.next (s.withInputs_skipIf _ _ _ _)⟩
  case ldVxK x =>
    obtain rfl := sameKeys trivial
    obtain rfl := sameKprev trivial
    by_cases noNewKey : s.newKeys = 0
    · exact ⟨_, exec_ldVxK_of_noNewKey x noNewKey,
        by simpa using exec_ldVxK_of_noNewKey (s := s.withInputs s.kprev s.keys rnd) x noNewKey⟩
    · exact ⟨_, exec_ldVxK_of_newKey x noNewKey,
        by simpa using exec_ldVxK_of_newKey (s := s.withInputs s.kprev s.keys rnd) x noNewKey⟩
  case rnd =>
    obtain rfl := sameRnd trivial
    exact ⟨_, rfl, by simp [exec, execRnd]⟩
  case seI | sneI | seR | sneR => exact ⟨_, rfl, congrArg Host.Outcome.next (s.withInputs_skipIf _ _ _ _)⟩
  case cls | jp => exact ⟨_, rfl, rfl⟩
  case ldI | addI | ldR | orR | andR | xorR | ldVxDt =>
    exact ⟨_, rfl, by simp [exec, execLdI, execAddI, execLdR, execOr, execAnd, execXor, execLdVxDt]⟩
  case addR | sub | shr | subn | shl =>
    exact ⟨_, rfl, by simp [exec, execAddR, execSub, execShr, execSubn, execShl]⟩
  case ldIdx | addIdx | ldF => exact ⟨_, rfl, by simp [exec, execLdIdx, execAddIdx, execLdF]⟩
  case ldDtVx | ldStVx => exact ⟨_, rfl, by simp [exec, execLdDtVx, execLdStVx]⟩

/-- No instruction writes the inputs. -/
theorem exec_keeps_inputs {i : Instr} {s t : State} (executed : exec i s = .next t) :
    t.kprev = s.kprev ∧ t.keys = s.keys ∧ t.rnd = s.rnd := by
  rcases exec_ends executed with ⟨-, r, rfl⟩ | ⟨-, effects⟩
  · exact ⟨rfl, rfl, rfl⟩
  · rw [effects.fields]
    exact ⟨rfl, rfl, rfl⟩

/-- The answer on other inputs is the answer itself with those inputs. -/
theorem exec_withInputs_of_next {i : Instr} {s t : State} {kprev keys : Word} {rnd : Byte}
    (sameKprev : ReadsKprev i → kprev = s.kprev) (sameKeys : ReadsKeys i → keys = s.keys)
    (sameRnd : ReadsRnd i → rnd = s.rnd) (executed : exec i s = .next t) :
    exec i (s.withInputs kprev keys rnd) = .next (t.withInputs kprev keys rnd) := by
  obtain ⟨t', executed', other⟩ := exec_withInputs sameKprev sameKeys sameRnd
  obtain rfl : t = t' := eq_of_next executed executed'
  exact other

theorem not_readsRnd {i : Instr} (notRnd : ∀ x nn, i ≠ .rnd x nn) : ¬ ReadsRnd i := by
  cases i
  case rnd x nn => exact absurd rfl (notRnd x nn)
  all_goals exact id

theorem not_readsKprev {i : Instr} (notWait : ∀ x, i ≠ .ldVxK x) : ¬ ReadsKprev i := by
  cases i
  case ldVxK x => exact absurd rfl (notWait x)
  all_goals exact id

theorem not_readsKeys {i : Instr} (notWait : ∀ x, i ≠ .ldVxK x) (notSkp : ∀ x, i ≠ .skp x)
    (notSknp : ∀ x, i ≠ .sknp x) : ¬ ReadsKeys i := by
  cases i
  case ldVxK x => exact absurd rfl (notWait x)
  case skp x => exact absurd rfl (notSkp x)
  case sknp x => exact absurd rfl (notSknp x)
  all_goals exact id

/-! ## The statements -/

/-- Settles O25: only RND reads the input that differs. -/
theorem randomByteReachesRndAlone : Obligations.RandomByteReachesRndAlone := by
  intro i s t r notRnd executed
  obtain ⟨sameKprev, sameKeys, -⟩ := exec_keeps_inputs executed
  have answer : t.withInputs s.kprev s.keys r = { t with rnd := r } := by
    rw [← sameKprev, ← sameKeys, State.withInputs]
  rw [← answer]
  exact exec_withInputs_of_next (fun _ => rfl) (fun _ => rfl) (fun reads => absurd reads (not_readsRnd notRnd)) executed

/-- Settles O26: only LD_VX_K reads KPREV, and only it, SKP and SKNP read the keys. -/
theorem keysReachTheKeyInstructionsAlone : Obligations.KeysReachTheKeyInstructionsAlone := by
  intro i s t k notWait executed
  obtain ⟨sameKprev, sameKeys, sameRnd⟩ := exec_keeps_inputs executed
  constructor
  · have answer : t.withInputs k s.keys s.rnd = { t with kprev := k } := by
      rw [← sameKeys, ← sameRnd, State.withInputs]
    rw [← answer]
    exact exec_withInputs_of_next (fun reads => absurd reads (not_readsKprev notWait)) (fun _ => rfl) (fun _ => rfl)
      executed
  · intro notSkp notSknp
    have answer : t.withInputs s.kprev k s.rnd = { t with keys := k } := by
      rw [← sameKprev, ← sameRnd, State.withInputs]
    rw [← answer]
    exact exec_withInputs_of_next (fun _ => rfl)
      (fun reads => absurd reads (not_readsKeys notWait notSkp notSknp)) (fun _ => rfl) executed

end Sys2Proof.Machine
end

section
/-! The statements about Reset, Load, Run, HaltReq and Tick (10_state.md section 14, 60_exceptions.md sections 4 and 6,
70_reset_and_hazards.md). -/

namespace Sys2Proof.Machine

/-! ## What each event answers, row by row (rules R142, R145) -/

theorem step_eq_of_nextEvent {s : State} {e : Event} (due : s.nextEvent = e) : step s = deliver e s.takeEvent := by
  rw [step_eq_deliver, due]

/-- Load before CAUSE and RUN are written: font and ROM in memory and PC at the entry point (rule R173). -/
def State.loadProgram (s : State) (font : Vector Byte Config.fontBytes) (rom : List Byte) : State :=
  { s with mem := (s.mem.writeAll fontBase font.toList).writeAll Config.progBase rom }.setPc entry

theorem deliver_load_of_fits {s : State} (font : Vector Byte Config.fontBytes) {rom : List Byte}
    (inReset : s.run = .reset) (fits : rom.length ≤ Config.progMax) :
    deliver (.load font rom) s = .next { s.loadProgram font rom with cause := .none, run := .loaded } := by
  rw [deliver, loadEvent, if_pos inReset, if_neg (Nat.not_lt.mpr fits), State.loadProgram]

theorem deliver_load_of_tooLarge {s : State} (font : Vector Byte Config.fontBytes) {rom : List Byte}
    (inReset : s.run = .reset) (tooLarge : Config.progMax < rom.length) :
    deliver (.load font rom) s = .next { s with cause := .programTooLarge } := by
  rw [deliver, loadEvent, if_pos inReset, if_pos tooLarge]

theorem deliver_load_of_not_reset {s : State} (font : Vector Byte Config.fontBytes) (rom : List Byte)
    (notReset : s.run ≠ .reset) : deliver (.load font rom) s = .next s := by
  rw [deliver, loadEvent, if_neg notReset]

theorem deliver_run_of_loaded {s : State} (loaded : s.run = .loaded) :
    deliver .run s = .next { s with run := .running } := by
  rw [deliver, runEvent, if_pos loaded]

theorem deliver_run_of_not_loaded {s : State} (notLoaded : s.run ≠ .loaded) : deliver .run s = .next s := by
  rw [deliver, runEvent, if_neg notLoaded]

theorem deliver_haltReq_of_running {s : State} (running : s.run = .running) :
    deliver .haltReq s = .next { s with run := .halted, haltReason := .hostRequest } := by
  rw [deliver, haltReqEvent, if_pos running]

theorem deliver_haltReq_of_not_running {s : State} (notRunning : s.run ≠ .running) :
    deliver .haltReq s = .next s := by
  rw [deliver, haltReqEvent, if_neg notRunning]

theorem deliver_tick_of_not_running {s : State} (notRunning : s.run ≠ .running) : deliver .tick s = .next s := by
  rw [deliver, tickEvent, if_neg notRunning]

theorem deliver_step_of_running {s : State} (keys : Word) (rnd : Byte) (running : s.run = .running) :
    deliver (.step keys rnd) s = coreStep keys rnd s := by
  rw [deliver, if_pos running]

theorem deliver_step_of_not_running {s : State} (keys : Word) (rnd : Byte) (notRunning : s.run ≠ .running) :
    deliver (.step keys rnd) s = .next s := by
  rw [deliver, if_neg notRunning]

/-- What one event makes of the state it finds: a row of the table of rule R142, or no effect (rule R145). -/
inductive Delivers (s : State) : Event → State → Prop where
  | noEffect (e : Event) : Delivers s e s
  | reset : Delivers s .reset (resetEvent s)
  | loadTooLarge (font : Vector Byte Config.fontBytes) (rom : List Byte) (inReset : s.run = .reset)
      (tooLarge : Config.progMax < rom.length) : Delivers s (.load font rom) { s with cause := .programTooLarge }
  | load (font : Vector Byte Config.fontBytes) (rom : List Byte) (inReset : s.run = .reset)
      (fits : rom.length ≤ Config.progMax) :
      Delivers s (.load font rom) { s.loadProgram font rom with cause := .none, run := .loaded }
  | run (loaded : s.run = .loaded) : Delivers s .run { s with run := .running }
  | step (keys : Word) (rnd : Byte) (t : State) (running : s.run = .running)
      (stepped : coreStep keys rnd s = .next t) : Delivers s (.step keys rnd) t
  | tick (running : s.run = .running) : Delivers s .tick (tickEvent s)
  | haltReq (running : s.run = .running) : Delivers s .haltReq { s with run := .halted, haltReason := .hostRequest }

theorem delivers_of_deliver {e : Event} {s t : State} (delivered : deliver e s = .next t) : Delivers s e t := by
  cases e
  case reset =>
    obtain rfl := Host.Outcome.next.inj delivered
    exact .reset
  case load font rom =>
    by_cases inReset : s.run = .reset
    · rcases Nat.lt_or_ge Config.progMax rom.length with tooLarge | fits
      · obtain rfl := eq_of_next (deliver_load_of_tooLarge font inReset tooLarge) delivered
        exact .loadTooLarge font rom inReset tooLarge
      · obtain rfl := eq_of_next (deliver_load_of_fits font inReset fits) delivered
        exact .load font rom inReset fits
    · obtain rfl := eq_of_next (deliver_load_of_not_reset font rom inReset) delivered
      exact .noEffect _
  case run =>
    by_cases loaded : s.run = .loaded
    · obtain rfl := eq_of_next (deliver_run_of_loaded loaded) delivered
      exact .run loaded
    · obtain rfl := eq_of_next (deliver_run_of_not_loaded loaded) delivered
      exact .noEffect _
  case step keys rnd =>
    by_cases running : s.run = .running
    · exact .step keys rnd t running ((deliver_step_of_running keys rnd running).symm.trans delivered)
    · obtain rfl := eq_of_next (deliver_step_of_not_running keys rnd running) delivered
      exact .noEffect _
  case tick =>
    by_cases running : s.run = .running
    · obtain rfl := Host.Outcome.next.inj delivered
      exact .tick running
    · obtain rfl := eq_of_next (deliver_tick_of_not_running running) delivered
      exact .noEffect _
  case haltReq =>
    by_cases running : s.run = .running
    · obtain rfl := eq_of_next (deliver_haltReq_of_running running) delivered
      exact .haltReq running
    · obtain rfl := eq_of_next (deliver_haltReq_of_not_running running) delivered
      exact .noEffect _

/-! ## Memory after a Load (rule R173) -/

theorem State.loadProgram_byte (s : State) (font : Vector Byte Config.fontBytes) (rom : List Byte) {a : Nat}
    (notPc : a ∉ pcBytes) :
    (s.loadProgram font rom).byte a =
      if 0x200 ≤ a ∧ a < 0x200 + rom.length then rom[a - 0x200]?.getD 0
      else if 0x050 ≤ a ∧ a < 0x0A0 then font.toList[a - 0x050]?.getD 0 else s.byte a := by
  obtain ⟨-, bytes⟩ :=
    State.setPc_writesOnly { s with mem := (s.mem.writeAll fontBase font.toList).writeAll Config.progBase rom } entry
  rw [State.loadProgram, bytes a notPc, State.byte, Memory.read_writeAll, Memory.read_writeAll, Vector.length_toList]
  rfl

theorem not_mem_pcBytes_of_windowEnd_le {a : Nat} (above : windowEnd ≤ a) : a ∉ pcBytes := by
  simp only [windowEnd, pcBytes, pcAddr, List.mem_cons, List.not_mem_nil, or_false] at above ⊢
  omega

theorem State.loadProgram_byte_font (s : State) (font : Vector Byte Config.fontBytes) (rom : List Byte) {j : Nat}
    (h : j < Config.fontBytes) : (s.loadProgram font rom).byte (0x050 + j) = font[j] := by
  simp only [Config.fontBytes] at h
  rw [s.loadProgram_byte font rom (not_mem_pcBytes_of_windowEnd_le (by rw [windowEnd]; omega)), if_neg (by omega),
    if_pos (by omega), Nat.add_sub_cancel_left]
  simp [h]

theorem State.loadProgram_byte_rom (s : State) (font : Vector Byte Config.fontBytes) (rom : List Byte) {j : Nat}
    (h : j < rom.length) : (s.loadProgram font rom).byte (0x200 + j) = rom[j] := by
  rw [s.loadProgram_byte font rom (not_mem_pcBytes_of_windowEnd_le (by rw [windowEnd]; omega)), if_pos (by omega),
    Nat.add_sub_cancel_left]
  simp [h]

theorem State.loadProgram_byte_elsewhere (s : State) (font : Vector Byte Config.fontBytes) (rom : List Byte) {a : Nat}
    (notFont : ¬(0x050 ≤ a ∧ a < 0x0A0)) (notRom : ¬(0x200 ≤ a ∧ a < 0x200 + rom.length)) (notPc : a ∉ pcBytes) :
    (s.loadProgram font rom).byte a = s.byte a := by
  rw [s.loadProgram_byte font rom notPc, if_neg notRom, if_neg notFont]

/-! ## Registers outside the bytes written -/

theorem vAddr_not_mem (x : Reg) {as : List Nat} (fromI : ∀ a ∈ as, iAddr ≤ a) : vAddr x ∉ as :=
  fun mem => absurd (vAddr_lt x) (Nat.not_lt.mpr (fromI _ mem))

theorem State.WritesOnly.v_eq {s t : State} {as : List Nat} (frame : s.WritesOnly t as) {x : Reg}
    (elsewhere : vAddr x ∉ as) : t.v x = s.v x := by
  obtain ⟨-, bytes⟩ := frame
  exact bytes _ elsewhere

theorem State.WritesOnly.pc_eq {s t : State} {as : List Nat} (frame : s.WritesOnly t as)
    (high : pcAddr ∉ as) (low : pcAddr + 1 ∉ as) : t.pc = s.pc := by
  obtain ⟨-, bytes⟩ := frame
  rw [State.pc, State.word, bytes _ high, bytes _ low]
  rfl

/-- A Tick that comes next in Running: the timers count down, and nothing but them changes in the state it finds. -/
theorem step_tick_of_running {s : State} (due : s.nextEvent = .tick) (running : s.run = .running) :
    ∃ u, step s = .next u ∧ u.dt.toNat = s.dt.toNat - 1 ∧ u.st.toNat = s.st.toNat - 1 ∧ u.run = .running ∧
      s.takeEvent.WritesOnly u [dtAddr, stAddr] := by
  rw [step_eq_of_nextEvent due]
  exact deliver_tick_of_running running

/-! ## The statements -/

/-- Settles O6: no byte is listed and every other field is written out. -/
theorem resetStateHoldsTheResetTable : Obligations.ResetStateHoldsTheResetTable :=
  ⟨fun _ => rfl, fun _ => rfl, rfl, rfl, rfl, rfl, rfl, rfl, Display.blank_pixel, rfl, rfl, rfl, rfl, rfl, rfl, rfl,
    rfl⟩

/-- Settles O7: Reset answers the reset state with the events still due. -/
theorem resetEventActsInEveryState : Obligations.ResetEventActsInEveryState := by
  intro s due
  exact ⟨resetEvent s.takeEvent, step_eq_of_nextEvent due, fun _ => rfl, rfl, Display.blank_pixel, rfl, rfl, rfl, rfl,
    rfl, rfl, rfl, rfl⟩

/-- Settles O8: font, ROM and PC lie apart, so each reads back and every other byte is as before. -/
theorem loadPlacesFontAndProgram : Obligations.LoadPlacesFontAndProgram := by
  intro s font rom inReset fits
  exact ⟨_, deliver_load_of_fits font inReset fits, fun _ => s.loadProgram_byte_font font rom,
    fun _ => s.loadProgram_byte_rom font rom, fun _ => s.loadProgram_byte_elsewhere font rom,
    State.setPc_pc _ entry, rfl⟩

/-- Settles O9: RUN stays Reset after the first Load, so the second finds the row it needs. -/
theorem loadTooLargeOnlySetsCause : Obligations.LoadTooLargeOnlySetsCause := by
  intro s font font' rom rom' inReset tooLarge fits
  exact ⟨_, deliver_load_of_tooLarge font inReset tooLarge, rfl, rfl, _, deliver_load_of_fits font' inReset fits, rfl,
    rfl⟩

/-- Settles O10: Reset clears every byte, the Load writes font, ROM and PC, and Run writes RUN alone. -/
theorem firstInstructionState : Obligations.FirstInstructionState := by
  intro s font rom rest fits inbox
  obtain ⟨u, loads, fontAt, romAt, elsewhere, pc, fields⟩ :=
    loadPlacesFontAndProgram (resetEvent s.takeEvent).takeEvent font rom rfl fits
  have resets : step s = .next (resetEvent s.takeEvent) := step_eq_of_nextEvent (State.nextEvent_cons inbox)
  have inbox₁ : (resetEvent s.takeEvent).inbox = .load font rom :: .run :: rest := congrArg List.tail inbox
  have inbox₂ : u.inbox = .run :: rest := by
    rw [fields]
    exact congrArg List.tail inbox₁
  have loaded : u.run = .loaded := by rw [fields]
  have runs : step u = .next { u.takeEvent with run := .running } :=
    (step_eq_of_nextEvent (State.nextEvent_cons inbox₂)).trans (deliver_run_of_loaded loaded)
  have threeSteps : Host.Core.run core 3 s = .next { u.takeEvent with run := .running } := by
    rw [core_run_succ resets, core_run_succ ((step_eq_of_nextEvent (State.nextEvent_cons inbox₁)).trans loads),
      core_run_succ runs]
    rfl
  have zeroBelow : ∀ a, a < 0x200 → ¬(0x050 ≤ a ∧ a < 0x0A0) → a ∉ pcBytes → u.byte a = 0 :=
    fun a below notFont => elsewhere a notFont (by omega)
  refine ⟨_, threeSteps, rfl, pc, fun x => ?v, ?regI, ?dt, ?st, ?sp, fun px py => ?pixel, romAt,
    fun j past => ?pastRom, fontAt, zeroBelow, congrArg List.tail inbox₂⟩
  case v =>
    have belowI := vAddr_lt x
    rw [iAddr] at belowI
    exact zeroBelow _ (by omega) (by omega) (vAddr_not_mem x (by decide))
  case regI =>
    show Word.ofBytes (u.byte iAddr) (u.byte (iAddr + 1)) = 0
    rw [zeroBelow iAddr (by decide) (by decide) (by decide), zeroBelow (iAddr + 1) (by decide) (by decide) (by decide)]
    rfl
  case dt => exact zeroBelow dtAddr (by decide) (by decide) (by decide)
  case st => exact zeroBelow stAddr (by decide) (by decide) (by decide)
  case sp =>
    show u.stack.length = 0
    rw [fields]
    rfl
  case pixel =>
    show u.disp.pixel px py = false
    rw [fields]
    exact Display.blank_pixel px py
  case pastRom =>
    exact elsewhere _ (by omega) (by omega) (not_mem_pcBytes_of_windowEnd_le (by rw [windowEnd]; omega))

/-- Settles O11: each is its row of the table. -/
theorem runAndHaltReqMoveTheRunState : Obligations.RunAndHaltReqMoveTheRunState :=
  fun _ => ⟨deliver_run_of_loaded, fun running => ⟨_, deliver_haltReq_of_running running, rfl, rfl⟩⟩

/-- Settles O12: each event is guarded by its run state. -/
theorem eventsWithoutARowHaveNoEffect : Obligations.EventsWithoutARowHaveNoEffect :=
  fun _ => ⟨deliver_load_of_not_reset, deliver_run_of_not_loaded, fun notRunning =>
    ⟨fun keys rnd => deliver_step_of_not_running keys rnd notRunning, deliver_tick_of_not_running notRunning,
      deliver_haltReq_of_not_running notRunning⟩⟩

/-- Settles O14: no event but Reset has a row for Halted or Faulted. -/
theorem haltedAndFaultedAreTerminal : Obligations.HaltedAndFaultedAreTerminal := by
  intro s ended notReset
  have noRow : s.takeEvent.run ≠ .reset ∧ s.takeEvent.run ≠ .loaded ∧ s.takeEvent.run ≠ .running := by
    rcases ended with halted | faulted
    · simp [halted]
    · simp [faulted]
  obtain ⟨notInReset, notLoaded, notRunning⟩ := noRow
  cases due : s.nextEvent
  case reset => exact absurd due notReset
  case load font rom => exact (step_eq_of_nextEvent due).trans (deliver_load_of_not_reset font rom notInReset)
  case run => exact (step_eq_of_nextEvent due).trans (deliver_run_of_not_loaded notLoaded)
  case step keys rnd => exact (step_eq_of_nextEvent due).trans (deliver_step_of_not_running keys rnd notRunning)
  case tick => exact (step_eq_of_nextEvent due).trans (deliver_tick_of_not_running notRunning)
  case haltReq => exact (step_eq_of_nextEvent due).trans (deliver_haltReq_of_not_running notRunning)

/-- Settles O15: the two count downs are the only writes. -/
theorem tickCountsDownBothTimers : Obligations.TickCountsDownBothTimers := by
  intro s running
  obtain ⟨u, ticked, delay, sound, -, frame⟩ := deliver_tick_of_running running
  exact ⟨u, ticked, delay, sound, frame⟩

/-- Settles O16, by induction on the number of Ticks: the first leaves a Running state with the others due. -/
theorem timersReachZeroAfterTheirCountOfTicks : Obligations.TimersReachZeroAfterTheirCountOfTicks := by
  intro k
  induction k with
  | zero =>
    intro s rest running inbox
    exact ⟨s, rfl, rfl, rfl, inbox, running, rfl, fun _ => rfl⟩
  | succ k ih =>
    intro s rest running inbox
    obtain ⟨u, ticked, delay, sound, stillRunning, frame⟩ := step_tick_of_running (State.nextEvent_cons inbox) running
    have inbox' : u.inbox = List.replicate k .tick ++ rest := by
      rw [frame.left]
      exact congrArg List.tail inbox
    obtain ⟨t, others, delays, sounds, inboxEnd, runEnd, pcEnd, vEnd⟩ := ih u rest stillRunning inbox'
    refine ⟨t, (core_run_succ ticked).trans others, by omega, by omega, inboxEnd, runEnd, ?pc, fun x => ?v⟩
    case pc => exact pcEnd.trans (frame.pc_eq (by decide) (by decide))
    case v => exact (vEnd x).trans (frame.v_eq (vAddr_not_mem x (by decide)))

end Sys2Proof.Machine
end

section
/-! The statements about the Step (30_encoding.md section 6), and about the run state and the invariant over every step
(60_exceptions.md section 4). -/

namespace Sys2Proof.Machine

/-! ## A Step in Running (rules R75 to R77, R140) -/

theorem step_eq_coreStep {s : State} {keys : Word} {rnd : Byte} (due : s.nextEvent = .step keys rnd)
    (running : s.run = .running) : step s = coreStep keys rnd s.takeEvent :=
  (step_eq_of_nextEvent due).trans (deliver_step_of_running keys rnd running)

theorem State.ranOff_eq_true_iff {s : State} : s.ranOff = true ↔ lastFetch < s.pc.toNat := decide_eq_true_iff

theorem State.ranOff_eq_false_iff {s : State} : s.ranOff = false ↔ s.pc.toNat ≤ lastFetch :=
  decide_eq_false_iff_not.trans Nat.not_lt

theorem coreStep_of_ranOff {s : State} (keys : Word) (rnd : Byte) (past : lastFetch < s.pc.toNat) :
    coreStep keys rnd s = .next { s with run := .halted, haltReason := .ranOffEnd } := by
  rw [coreStep, if_pos (State.ranOff_eq_true_iff.mpr past)]

theorem coreStep_of_unknownOpcode {s : State} {op : Word} (keys : Word) (rnd : Byte)
    (inRange : s.pc.toNat ≤ lastFetch) (fetched : decode s.fetch = .unknownOpcode op) :
    coreStep keys rnd s = .next (((s.sample keys rnd).reportUnknown op).advance).endStep := by
  rw [coreStep, if_neg (by simp [State.ranOff_eq_false_iff.mpr inRange]), fetched]

theorem State.endStep_of_faulted {s : State} (faulted : s.run = .faulted) : s.endStep = s := by
  rw [State.endStep, if_pos faulted]

theorem State.endStep_of_not_faulted {s : State} (notFaulted : s.run ≠ .faulted) :
    s.endStep = { s with kprev := s.keys } := by
  rw [State.endStep, if_neg notFaulted]

/-- The conditions of the table of rule R135 are on memory and stack. -/
theorem faultsIn_congr {i : Instr} {s t : State} (mem : t.mem = s.mem) (stack : t.stack = s.stack) :
    faultsIn i t ↔ faultsIn i s := by
  cases i <;> simp only [faultsIn, State.sp, stack, State.regI_congr mem, State.v_congr mem]

theorem State.takeEvent_fetch (s : State) : s.takeEvent.fetch = s.fetch := rfl

/-! ## The invariant, run state by run state -/

/-- Settles O17: nothing is listed, called, shown, faulted or halted. -/
theorem invariantHoldsAtReset : Obligations.InvariantHoldsAtReset := by
  unfold Obligations.InvariantHoldsAtReset
  decide

/-- The fault registers and HALT_REASON as Reset leaves them. -/
abbrev State.RecordClear (s : State) : Prop :=
  s.faultPc = 0 ∧ s.faultOpcode = 0 ∧ s.faultAddr = 0 ∧ s.haltReason = .notHalted

theorem State.Inv.recordClear {s : State} (inv : s.Inv) (notHalted : s.run ≠ .halted)
    (notFaulted : s.run ≠ .faulted) : s.RecordClear := by
  obtain ⟨-, -, faulted, -, halted, record, address, -⟩ := inv
  have noFault : s.cause.isFault = false := Bool.eq_false_iff.mpr (mt faulted.mpr notFaulted)
  have noAddress : s.cause ≠ .addressOutOfRange := by
    intro isAddress
    rw [isAddress] at noFault
    cases noFault
  obtain ⟨pc, opcode⟩ := record noFault
  exact ⟨pc, opcode, address noAddress, Classical.not_not.mp (mt halted.mpr notHalted)⟩

theorem State.Inv.cause_eq_none {s : State} (inv : s.Inv) (notReset : s.run ≠ .reset)
    (notFaulted : s.run ≠ .faulted) : s.cause = .none := by
  obtain ⟨-, -, faulted, tooLarge, -⟩ := inv
  have noFault := mt faulted.mpr notFaulted
  have fits := mt tooLarge notReset
  cases cause : s.cause
  case none => rfl
  case programTooLarge => exact absurd cause fits
  all_goals exact absurd (congrArg Cause.isFault cause) noFault

/-- What the invariant says of a Running state. -/
theorem State.Inv.at_running {s : State} (inv : s.Inv) (running : s.run = .running) :
    s.mem.wf ∧ s.sp ≤ Config.stackCap ∧ s.cause = .none ∧ s.RecordClear := by
  have clear := inv.recordClear (by simp [running]) (by simp [running])
  have cause := inv.cause_eq_none (by simp [running]) (by simp [running])
  obtain ⟨wf, depth, -⟩ := inv
  exact ⟨wf, depth, cause, clear⟩

/-- What the invariant asks for in a state neither Halted nor Faulted. -/
theorem State.inv_of_recordClear {s : State} (clear : s.RecordClear) (wf : s.mem.wf) (depth : s.sp ≤ Config.stackCap)
    (notHalted : s.run ≠ .halted) (notFaulted : s.run ≠ .faulted)
    (cause : s.cause = .none ∨ s.cause = .programTooLarge ∧ s.run = .reset)
    (reset : s.run = .reset → s.mem = [] ∧ s.stack = [] ∧ s.disp = Display.blank ∧ s.kprev = 0)
    (loaded : s.run = .loaded → s.pc = entry ∧ s.stack = [] ∧ s.disp = Display.blank ∧ s.kprev = 0) :
    s.Inv := by
  obtain ⟨faultPc, faultOpcode, faultAddr, haltReason⟩ := clear
  have noFault :
      s.cause.isFault ≠ true ∧ s.cause ≠ .addressOutOfRange ∧ (s.cause = .programTooLarge → s.run = .reset) := by
    rcases cause with none | ⟨tooLarge, inReset⟩
    · simp [none, Cause.isFault]
    · simp [tooLarge, Cause.isFault, inReset]
  obtain ⟨noFault, noAddress, tooLarge⟩ := noFault
  exact ⟨wf, depth, iff_of_false notFaulted noFault, tooLarge, iff_of_false notHalted (not_not.mpr haltReason),
    fun _ => ⟨faultPc, faultOpcode⟩, fun _ => faultAddr, fun isAddress => absurd isAddress noAddress,
    fun faulted => absurd faulted notFaulted, fun ranOff => absurd (haltReason.symm.trans ranOff) nofun, reset,
    loaded⟩

/-- In Running the clauses on Reset and Loaded ask for nothing. -/
theorem State.inv_of_running {s : State} (running : s.run = .running) (wf : s.mem.wf) (depth : s.sp ≤ Config.stackCap)
    (cause : s.cause = .none) (clear : s.RecordClear) : s.Inv :=
  State.inv_of_recordClear clear wf depth (by simp [running]) (by simp [running]) (.inl cause) (by simp [running])
    (by simp [running])

/-! ## What each kind of change makes of it -/

/-- An instruction that completes, a skipped unknown opcode and a Tick. -/
theorem State.Completes.inv {s t : State} (completes : s.Completes t) (running : s.run = .running) (inv : s.Inv) :
    t.Inv := by
  obtain ⟨wf, depth, cause, faultPc, faultOpcode, faultAddr, haltReason⟩ := inv.at_running running
  exact State.inv_of_running (completes.run.trans running) (completes.wf wf) (completes.depth depth)
    (completes.cause.trans cause)
    ⟨completes.faultPc.trans faultPc, completes.faultOpcode.trans faultOpcode, completes.faultAddr.trans faultAddr,
      completes.haltReason.trans haltReason⟩

/-- Fault entry, from a PC the instruction was fetched from. -/
theorem State.Inv.takeFault {s : State} {r : Raise} (inv : s.Inv) (running : s.run = .running)
    (inRange : s.pc.toNat ≤ lastFetch) (op : Word) (raised : r.InRange) : (s.takeFault op r).Inv := by
  obtain ⟨wf, depth, -, -, -, -, haltReason⟩ := inv.at_running running
  have isFault : r.cause.isFault = true := by cases r <;> rfl
  have notTooLarge : r.cause ≠ .programTooLarge := by cases r <;> simp [Raise.cause]
  have noAddress : r.cause ≠ .addressOutOfRange → r.faultAddr = 0 := by
    cases r <;> simp [Raise.cause, Raise.faultAddr]
  exact ⟨wf, depth, iff_of_true rfl isFault, fun tooLarge => absurd tooLarge notTooLarge,
    iff_of_false nofun (not_not.mpr haltReason), fun noFault => absurd (isFault.symm.trans noFault) nofun,
    noAddress, r.faultAddr_above raised, fun _ => ⟨rfl, inRange⟩,
    fun ranOff => absurd (haltReason.symm.trans ranOff) nofun, nofun, nofun⟩

/-- The end of a Step that did not fault, which sets KPREV. -/
theorem State.Inv.endStep {s : State} (inv : s.Inv) (running : s.run = .running) : s.endStep.Inv := by
  obtain ⟨wf, depth, cause, clear⟩ := inv.at_running running
  rw [State.endStep_of_not_faulted (by simp [running])]
  exact State.inv_of_running running wf depth cause clear

/-- A halt, by HaltReq or by a PC past 0xFFE. -/
theorem State.Inv.halt {s : State} {r : HaltReason} (inv : s.Inv) (running : s.run = .running)
    (reason : r ≠ .notHalted) (past : r = .ranOffEnd → lastFetch < s.pc.toNat) :
    { s with run := .halted, haltReason := r }.Inv := by
  obtain ⟨wf, depth, cause, faultPc, faultOpcode, faultAddr, -⟩ := inv.at_running running
  exact ⟨wf, depth, iff_of_false nofun (by simp [cause, Cause.isFault]), by simp [cause], iff_of_true rfl reason,
    fun _ => ⟨faultPc, faultOpcode⟩, fun _ => faultAddr, by simp [cause], nofun, past, nofun, nofun⟩

/-- Run: a Loaded state has a clear record already. -/
theorem State.Inv.start {s : State} (inv : s.Inv) (loaded : s.run = .loaded) : { s with run := .running }.Inv := by
  have clear := inv.recordClear (by simp [loaded]) (by simp [loaded])
  have cause := inv.cause_eq_none (by simp [loaded]) (by simp [loaded])
  obtain ⟨wf, depth, -⟩ := inv
  exact State.inv_of_running rfl wf depth cause clear

theorem State.loadProgram_wf {s : State} (wf : s.mem.wf) (font : Vector Byte Config.fontBytes) {rom : List Byte}
    (fits : rom.length ≤ Config.progMax) : (s.loadProgram font rom).mem.wf := by
  have fontFits : fontBase + font.toList.length ≤ Config.memSize := by rw [Vector.length_toList]; decide
  have romFits : Config.progBase + rom.length ≤ Config.memSize := Nat.add_le_add_left fits _
  have loaded := Memory.writeAll_wf (Memory.writeAll_wf wf font.toList fontFits) rom romFits
  exact State.setPc_wf (s := { s with mem := _ }) loaded entry

/-- A Load that fits: Reset has cleared all that Loaded asks for but PC, which Load writes. -/
theorem State.Inv.load {s : State} (inv : s.Inv) (inReset : s.run = .reset) (font : Vector Byte Config.fontBytes)
    {rom : List Byte} (fits : rom.length ≤ Config.progMax) :
    { s.loadProgram font rom with cause := .none, run := .loaded }.Inv := by
  have clear := inv.recordClear (by simp [inReset]) (by simp [inReset])
  obtain ⟨wf, depth, -, -, -, -, -, -, -, -, cleared, -⟩ := inv
  obtain ⟨-, restCleared⟩ := cleared inReset
  exact State.inv_of_recordClear clear (State.loadProgram_wf wf font fits) depth nofun nofun (.inl rfl) nofun
    fun _ => ⟨State.setPc_pc _ entry, restCleared⟩

/-- A Load that is too large leaves the state in Reset, the one run state where CAUSE may say so. -/
theorem State.Inv.loadTooLarge {s : State} (inv : s.Inv) (inReset : s.run = .reset) :
    { s with cause := .programTooLarge }.Inv := by
  have clear := inv.recordClear (by simp [inReset]) (by simp [inReset])
  obtain ⟨wf, depth, -, -, -, -, -, -, -, -, cleared, -⟩ := inv
  exact State.inv_of_recordClear clear wf depth (by simp [inReset]) (by simp [inReset]) (.inr ⟨rfl, inReset⟩) cleared
    (by simp [inReset])

/-- A Step in Running halts, skips an unknown opcode, takes a fault or completes an instruction. -/
theorem coreStep_keeps_inv {s t : State} {keys : Word} {rnd : Byte} (inv : s.Inv) (running : s.run = .running)
    (stepped : coreStep keys rnd s = .next t) : t.Inv := by
  rcases coreStep_cases keys rnd s with ⟨ranOff, ends⟩ | ⟨-, op, -, ends⟩ | ⟨inRange, i, u, -, executed, ends⟩
  · obtain rfl := eq_of_next ends stepped
    exact inv.halt running nofun fun _ => State.ranOff_eq_true_iff.mp ranOff
  · obtain rfl := eq_of_next ends stepped
    have skipped := advance_completes ((s.sample keys rnd).reportUnknown op)
    exact (skipped.inv running inv).endStep running
  · obtain rfl := eq_of_next ends stepped
    have sampled : (s.sample keys rnd).Inv := inv
    obtain ⟨u', executed', ending⟩ := exec_cases i (s.sample keys rnd)
    obtain rfl : u = u' := eq_of_next executed executed'
    rcases ending with ⟨r, raised, rfl⟩ | completes
    · rw [State.endStep_of_faulted rfl]
      exact sampled.takeFault running (State.ranOff_eq_false_iff.mp inRange) _ raised
    · exact (completes.inv running sampled).endStep (completes.run.trans running)

theorem tickEvent_completes {s : State} (running : s.run = .running) : s.Completes (tickEvent s) := by
  rw [tickEvent, if_pos running]
  exact .of_mem rfl fun wf => State.setSt_wf (State.setDt_wf wf _) _

theorem Delivers.inv {e : Event} {s t : State} (delivers : Delivers s e t) (inv : s.Inv) : t.Inv := by
  cases delivers with
  | noEffect => exact inv
  | reset => exact invariantHoldsAtReset
  | loadTooLarge font rom inReset tooLarge => exact inv.loadTooLarge inReset
  | load font rom inReset fits => exact inv.load inReset font fits
  | run loaded => exact inv.start loaded
  | step keys rnd t running stepped => exact coreStep_keeps_inv inv running stepped
  | tick running => exact (tickEvent_completes running).inv running inv
  | haltReq running => exact inv.halt running nofun nofun

/-! ## Changes of RUN (rule R142) -/

/-- A Step in Running that changes RUN halts past 0xFFE or runs an instruction that faults by the table of rule R135. -/
theorem coreStep_run_changes {s t : State} {keys : Word} {rnd : Byte}
    (stepped : coreStep keys rnd s = .next t) (changed : t.run ≠ s.run) :
    (t.run = .halted ∧ t.haltReason = .ranOffEnd ∧ lastFetch < s.pc.toNat) ∨
      (t.run = .faulted ∧ s.pc.toNat ≤ lastFetch ∧ ∃ i, decode s.fetch = .instr i ∧ faultsIn i s) := by
  rcases coreStep_cases keys rnd s with ⟨ranOff, ends⟩ | ⟨-, op, -, ends⟩ | ⟨inRange, i, u, fetched, executed, ends⟩
  · obtain rfl := eq_of_next ends stepped
    exact .inl ⟨rfl, rfl, State.ranOff_eq_true_iff.mp ranOff⟩
  · obtain rfl := eq_of_next ends stepped
    exact absurd (State.endStep_run _) changed
  · obtain rfl := eq_of_next ends stepped
    rw [State.endStep_run] at changed ⊢
    rcases exec_ends executed with ⟨faults, r, rfl⟩ | ⟨-, effects⟩
    · exact .inr ⟨rfl, State.ranOff_eq_false_iff.mp inRange, i, fetched, (faultsIn_congr rfl rfl).mp faults⟩
    · exact absurd (congrArg State.run effects.fields) changed

/-! ## The statements -/

/-- Settles O18: taking the event off leaves what the invariant speaks of, and each event keeps it. -/
theorem everyStepKeepsTheInvariant : Obligations.EveryStepKeepsTheInvariant := by
  intro s t inv stepped
  have found : s.takeEvent.Inv := inv
  exact (delivers_of_deliver stepped).inv found

/-- Settles O13: by the event that came, each of which changes RUN only where its row says. -/
theorem runStateChangesOnlyByTheTable : Obligations.RunStateChangesOnlyByTheTable := by
  intro s t stepped changed
  have delivers : Delivers s.takeEvent s.nextEvent t := delivers_of_deliver stepped
  generalize s.nextEvent = e at *
  cases delivers with
  | noEffect => exact absurd rfl changed
  | reset => exact .inl ⟨rfl, rfl⟩
  | loadTooLarge font rom inReset tooLarge => exact absurd rfl changed
  | load font rom inReset fits => exact .inr (.inl ⟨inReset, rfl, font, rom, rfl, fits⟩)
  | run loaded => exact .inr (.inr (.inl ⟨loaded, rfl, rfl⟩))
  | haltReq running => exact .inr (.inr (.inr (.inl ⟨running, rfl, rfl, rfl⟩)))
  | tick running => exact absurd (tickEvent_completes (s := s.takeEvent) running).run changed
  | step keys rnd t running stepped =>
    rcases coreStep_run_changes stepped changed with
      ⟨halted, reason, past⟩ | ⟨faulted, inRange, i, fetched, faults⟩
    · exact .inr (.inr (.inr (.inr (.inl ⟨running, halted, reason, past, keys, rnd, rfl⟩))))
    · rw [State.takeEvent_fetch] at fetched
      rw [faultsIn_congr s.takeEvent_mem s.takeEvent_stack] at faults
      exact .inr (.inr (.inr (.inr (.inr ⟨running, faulted, inRange, keys, rnd, i, rfl, fetched, faults⟩))))

/-- Settles O19: the bytes at PC are the word fetched, and the end of the Step sets KPREV unless it faulted. -/
theorem stepRunsTheDecodedInstruction : Obligations.StepRunsTheDecodedInstruction := by
  intro s i keys rnd due running inRange bytes
  have fetched : decode s.fetch = .instr i := by
    simpa [decodeBytes, State.fetch, State.word] using bytes
  obtain ⟨t, executed, -⟩ := exec_cases i (s.takeEvent.sample keys rnd)
  obtain ⟨-, sameKeys, -⟩ := exec_keeps_inputs executed
  have ends : t.endStep = if t.run = .faulted then t else { t with kprev := keys } := by
    rw [State.endStep, sameKeys]
    rfl
  rw [step_of_running_instr due running inRange fetched executed, executed, ends]

/-- Settles O20: a word that meets no row decodes to unknown opcode with itself, and the Step then reports, advances and
sets KPREV. -/
theorem unknownOpcodeIsReportedAndSkipped : Obligations.UnknownOpcodeIsReportedAndSkipped := by
  intro s keys rnd due running inRange illFormed
  have fetched : decode s.takeEvent.fetch = .unknownOpcode s.fetch := decode_of_not_wordWellFormed illFormed
  have stepped := (step_eq_coreStep due running).trans (coreStep_of_unknownOpcode keys rnd inRange fetched)
  have notFaulted : ((s.takeEvent.sample keys rnd).reportUnknown s.fetch).advance.run ≠ .faulted := by
    simp [running]
  rw [State.endStep_of_not_faulted notFaulted] at stepped
  refine ⟨_, stepped, ?pc, rfl, ?out, fun a elsewhere => ?byte, rfl⟩
  case pc => exact State.advance_pc _
  case out => rfl
  case byte => exact State.advance_byte _ elsewhere

/-- Settles O21: the halt check comes first, and writes RUN and HALT_REASON alone. -/
theorem pcPastTheEndHalts : Obligations.PcPastTheEndHalts := by
  intro s keys rnd due running past
  exact ⟨_, (step_eq_coreStep due running).trans (coreStep_of_ranOff keys rnd past), rfl, rfl, rfl⟩

end Sys2Proof.Machine
end
